-- ==== Sys2Proof/Word.lean ====
section
/-! DEFINITION. The word types of the FieldSpec engine (00_scope.md R5, R6, R7): unsigned quantities of fixed width,
bit 0 the least significant. -/

namespace Sys2Proof

/-- An operation word, and the fault information word: 32 bits (30_encoding.md R71, 10_state.md R31). -/
abbrev Word := BitVec 32

/-- One frame byte, table code, value operand or run length: 8 bits (20_memory.md R54). -/
abbrev Byte := BitVec 8

/-- One bit of the bit sequence (10_state.md R28): `true` is 1. -/
abbrev Bit := Bool

/-- The frame: a file of nine 8-bit registers (10_state.md R21). -/
abbrev Frame := Vector Byte 9

/-- A substitution table: a function from the 6-bit domain to 8-bit codes (20_memory.md R56 (a)). -/
abbrev Table := BitVec 6 → Byte

end Sys2Proof
end

