-- ==== Sys2Proof/Machine/Params.lean ====
section
/-! DEFINITION. The fixed parameters of the block, each in one place (00_scope.md R5; 91_not_in_source.md N14). The widths
and capacities (9 frame bytes, 73 bits, 73 run lengths) stand in the types of State. -/

namespace Sys2Proof.Machine

/-- `MAGIC`, the constant of byte 0 (00_scope.md R5). -/
abbrev magic : Byte := 0x80

/-- `FT_SHIFT`, the position of flagsType in byte 2 (00_scope.md R5, 90_conflicts.md C2). -/
abbrev ftShift : Nat := 1

/-- `SUBST_ENTRIES`: the table's domain is 0 to 63 (00_scope.md R5, 20_memory.md R56). -/
abbrev substEntries : Nat := 64

/-- `CHK_SHIFT` (00_scope.md R5). -/
abbrev chkShift : Nat := 2

/-- `CHK_MASK` (00_scope.md R5). -/
abbrev chkMask : BitVec 16 := 0x3F

end Sys2Proof.Machine
end

