-- ==== Sys2Proof/Machine/Operands.lean ====
section
/-! DEFINITION. The pure functions of frame building (40_frame_build.md R101 to R103) and the access to one frame byte
(20_memory.md R54, 10_state.md R21). -/

namespace Sys2Proof.Machine

/-- `FRAME[i]` for a byte index `i`; only 0 to 8 name a register (10_state.md R21). -/
def readByte (f : Frame) (i : Nat) : Byte := f[i]?.getD 0

/-- `FRAME[i] <- b`; an index above 8 names no register and nothing is written (10_state.md R21). -/
def writeByte (f : Frame) (i : Nat) (b : Byte) : Frame := f.setIfInBounds i b

/-- `(1 << w) - 1`, the mask of `w` low ones, in 8 bits (00_scope.md R7). -/
def lowOnes (w : BitVec 4) : Byte := BitVec.ofNat 8 (2 ^ w.toNat - 1)

/-- `extract(val, so, w) = (val >> so) & ((1 << w) - 1)` (40_frame_build.md R102). -/
def extract (val : Byte) (so : BitVec 3) (w : BitVec 4) : Byte := (val >>> so.toNat) &&& lowOnes w

/-- `place(byte, to, frag) = byte | trunc_8(frag << to)` (40_frame_build.md R103): the 8-bit shift drops what passes bit 7. -/
def place (byte : Byte) (toff : BitVec 3) (frag : Byte) : Byte := byte ||| (frag <<< toff.toNat)

/-- `init_frame(len, ft, aid)` (40_frame_build.md R101). -/
def initFrame (len : BitVec 4) (ft : BitVec 3) (aid : Byte) : Frame :=
  let zeroed : Frame := Vector.replicate 9 0
  let marked := writeByte zeroed 0 magic
  let flagged := writeByte marked 2 (ft.setWidth 8 <<< ftShift)
  if len = 9 ∧ aid ≠ 0 then writeByte flagged 7 aid else flagged

/-- The frame after one placement: `FRAME[tb] <- place(FRAME[tb], to, extract(val, so, w))` (40_frame_build.md R105). -/
def placeField (f : Frame) (tb : BitVec 4) (toff : BitVec 3) (w : BitVec 4) (so : BitVec 3) (val : Byte) : Frame :=
  writeByte f tb.toNat (place (readByte f tb.toNat) toff (extract val so w))

end Sys2Proof.Machine
end

