-- ==== Sys2Proof/Syntax.lean ====
section
/-! DEFINITION. The six operations of the engine (30_encoding.md R70), their operands at the widths of the word formats
(R72 to R75), the assembler spelling (R80) and the one-word pseudo-operations (R81). -/

namespace Sys2Proof

/-- An operation with its operands as the fields of the operation word hold them (30_encoding.md R75).
Which operand values are legal is `Instr.wellFormed`. -/
inductive Instr where
  /-- FINIT len, ft, aid (R72, 40_frame_build.md R104) -/
  | finit (len : BitVec 4) (ft : BitVec 3) (aid : Byte)
  /-- FPLACE tb, to, w, so, val (R73, 40_frame_build.md R105); the operand `to` is written `toff` (targetOffset) -/
  | fplace (tb : BitVec 4) (toff : BitVec 3) (w : BitVec 4) (so : BitVec 3) (val : Byte)
  /-- FSUB (R74, 41_frame_encode.md R123) -/
  | fsub
  /-- FFLAT (R74, 41_frame_encode.md R126) -/
  | fflat
  /-- FRLE (R74, 42_run_length.md R142) -/
  | frle
  /-- FENC (R74, 42_run_length.md R145) -/
  | fenc
  deriving DecidableEq, Repr

/-- The opcode `op = W[31:28]` of each operation (30_encoding.md R70). -/
def Instr.opcode : Instr → BitVec 4
  | .finit _ _ _ => 1
  | .fplace _ _ _ _ _ => 2
  | .fsub => 3
  | .fflat => 4
  | .frle => 5
  | .fenc => 6

/-- The mnemonics of 30_encoding.md R70. -/
def Instr.mnemonic : Instr → String
  | .finit _ _ _ => "FINIT"
  | .fplace _ _ _ _ _ => "FPLACE"
  | .fsub => "FSUB"
  | .fflat => "FFLAT"
  | .frle => "FRLE"
  | .fenc => "FENC"

/-- The operands in the assembler's order (30_encoding.md R80). -/
def Instr.operands : Instr → List Nat
  | .finit len ft aid => [len.toNat, ft.toNat, aid.toNat]
  | .fplace tb toff w so val => [tb.toNat, toff.toNat, w.toNat, so.toNat, val.toNat]
  | .fsub => []
  | .fflat => []
  | .frle => []
  | .fenc => []

/-- The assembler line `MNEMONIC operand, operand, ...` with decimal operands (30_encoding.md R80). -/
def Instr.assembly (i : Instr) : String :=
  match i.operands with
  | [] => i.mnemonic
  | ops => i.mnemonic ++ " " ++ String.intercalate ", " (ops.map toString)

/-- Pseudo-operation `FINIT len, ft` = `FINIT len, ft, 0` (30_encoding.md R81). -/
def Instr.finitNoAction (len : BitVec 4) (ft : BitVec 3) : Instr := .finit len ft 0

/-- Pseudo-operation `FPUT tb, to, w, val` = `FPLACE tb, to, w, 0, val` (30_encoding.md R81). -/
def Instr.fput (tb : BitVec 4) (toff : BitVec 3) (w : BitVec 4) (val : Byte) : Instr := .fplace tb toff w 0 val

/-- Pseudo-operation `FCHAN tb, to, val` = `FPLACE tb, to, 6, 2, val` (30_encoding.md R81). -/
def Instr.fchan (tb : BitVec 4) (toff : BitVec 3) (val : Byte) : Instr := .fplace tb toff 6 2 val

/-- Pseudo-operation `FBIT tb, to, flag` = `FPLACE tb, to, 1, 0, flag` (30_encoding.md R81), the flag as 0 or 1 (R75). -/
def Instr.fbit (tb : BitVec 4) (toff : BitVec 3) (flag : Bool) : Instr := .fplace tb toff 1 0 (if flag then 1 else 0)

end Sys2Proof
end

