-- ==== Sys2Proof/WellFormed.lean ====
section
/-! DEFINITION. Which operands are legal (30_encoding.md R72, R73, R77). An operation outside these ranges is spelled only
by a reserved word. The FieldSpec predicate of 20_memory.md R53 is here too; the block does not check it. -/

namespace Sys2Proof

/-- FINIT's `len`: "legal values 6 and 9 only" (30_encoding.md R72). -/
def legalLen (len : BitVec 4) : Bool := len == 6 || len == 9

/-- FPLACE's `tb`: "legal values 0 to 8" (30_encoding.md R73). -/
def legalTargetByte (tb : BitVec 4) : Bool := decide (tb.toNat ≤ 8)

/-- FPLACE's `w`: "legal values 1 to 8" (30_encoding.md R73). -/
def legalWidth (w : BitVec 4) : Bool := decide (1 ≤ w.toNat) && decide (w.toNat ≤ 8)

/-- The operands are in their legal ranges (30_encoding.md R76, column "field ranges"). -/
def Instr.wellFormed : Instr → Bool
  | .finit len _ _ => legalLen len
  | .fplace tb _ w _ _ => legalTargetByte tb && legalWidth w
  | .fsub => true
  | .fflat => true
  | .frle => true
  | .fenc => true

/-- `FieldSpecWF(to, w, so)` of 20_memory.md R53: an obligation of the host (70_reset_and_hazards.md R213).
A FieldSpec that breaks it is not reserved: it decodes and executes (30_encoding.md R77). -/
def fieldSpecWF (toff : BitVec 3) (w : BitVec 4) (so : BitVec 3) : Bool :=
  decide (toff.toNat + w.toNat ≤ 8) && decide (so.toNat + w.toNat ≤ 8)

end Sys2Proof
end

