-- ==== Sys2Proof/Decode.lean ====
section
/-! DEFINITION. The decoder of 30_encoding.md R82, total on 32-bit words, and after it the encoder from the word formats
R72 to R74. -/

namespace Sys2Proof

/-- Why a word is reserved: the classes of 30_encoding.md R77. The engine records no class; the names are the decoder's. -/
inductive Reserved where
  /-- opcode 0 or 7 to 15 -/
  | opcode
  /-- a one in a must-be-zero bit of the format -/
  | mustBeZero
  /-- FINIT with `len` not 6 and not 9 -/
  | frameLength
  /-- FPLACE with `tb` from 9 to 15 -/
  | targetByte
  /-- FPLACE with `w = 0` or `w` from 9 to 15 -/
  | width
  deriving DecidableEq, Repr

/-- The decoder's answer (30_encoding.md R82): an operation with its operands, or *reserved*. -/
inductive Verdict where
  | operation (i : Instr)
  | reserved (why : Reserved)
  deriving DecidableEq, Repr

/-- `op = W[31:28]` (30_encoding.md R71). -/
def opField (W : Word) : BitVec 4 := W.extractLsb' 28 4

/-- `len = W[27:24]` (30_encoding.md R75). -/
def lenField (W : Word) : BitVec 4 := W.extractLsb' 24 4

/-- `ft = W[22:20]` (30_encoding.md R75). -/
def ftField (W : Word) : BitVec 3 := W.extractLsb' 20 3

/-- `aid = W[7:0]` (30_encoding.md R75). -/
def aidField (W : Word) : Byte := W.extractLsb' 0 8

/-- `tb = W[27:24]` (30_encoding.md R75). -/
def tbField (W : Word) : BitVec 4 := W.extractLsb' 24 4

/-- `to = W[22:20]` (30_encoding.md R75). -/
def toField (W : Word) : BitVec 3 := W.extractLsb' 20 3

/-- `w = W[19:16]` (30_encoding.md R75). -/
def wField (W : Word) : BitVec 4 := W.extractLsb' 16 4

/-- `so = W[14:12]` (30_encoding.md R75). -/
def soField (W : Word) : BitVec 3 := W.extractLsb' 12 3

/-- `val = W[7:0]` (30_encoding.md R75). -/
def valField (W : Word) : Byte := W.extractLsb' 0 8

/-- Format D's must-be-zero bits `W[23]`, `W[19:8]` are zero (30_encoding.md R72, R82 step 3). -/
def zeroBitsD (W : Word) : Bool := W.extractLsb' 23 1 == 0 && W.extractLsb' 8 12 == 0

/-- Format P's must-be-zero bits `W[23]`, `W[15]`, `W[11:8]` are zero (30_encoding.md R73, R82 step 3). -/
def zeroBitsP (W : Word) : Bool :=
  W.extractLsb' 23 1 == 0 && W.extractLsb' 15 1 == 0 && W.extractLsb' 8 4 == 0

/-- Format N's must-be-zero bits `W[27:0]` are zero (30_encoding.md R74, R82 step 3). -/
def zeroBitsN (W : Word) : Bool := W.extractLsb' 0 28 == 0

/-- A format D word with opcode 1 (30_encoding.md R82 steps 3 to 6). -/
def decodeFinit (W : Word) : Verdict :=
  if ¬ zeroBitsD W then .reserved .mustBeZero
  else if lenField W = 6 ∨ lenField W = 9 then .operation (.finit (lenField W) (ftField W) (aidField W))
  else .reserved .frameLength

/-- A format P word with opcode 2 (30_encoding.md R82 steps 3 to 6). -/
def decodeFplace (W : Word) : Verdict :=
  if ¬ zeroBitsP W then .reserved .mustBeZero
  else if 9 ≤ (tbField W).toNat then .reserved .targetByte
  else if wField W = 0 ∨ 9 ≤ (wField W).toNat then .reserved .width
  else .operation (.fplace (tbField W) (toField W) (wField W) (soField W) (valField W))

/-- A format N word (30_encoding.md R82 steps 3 to 6). -/
def decodeNoOperand (i : Instr) (W : Word) : Verdict :=
  if zeroBitsN W then .operation i else .reserved .mustBeZero

/-- The decoder (30_encoding.md R82). It looks at no state. -/
def decode (W : Word) : Verdict :=
  if opField W = 1 then decodeFinit W
  else if opField W = 2 then decodeFplace W
  else if opField W = 3 then decodeNoOperand .fsub W
  else if opField W = 4 then decodeNoOperand .fflat W
  else if opField W = 5 then decodeNoOperand .frle W
  else if opField W = 6 then decodeNoOperand .fenc W
  else .reserved .opcode

/-- The operation word (40_frame_build.md R104, R105: `W = 0x10000000 | len << 24 | ft << 20 | aid` and
`W = 0x20000000 | tb << 24 | to << 20 | w << 16 | so << 12 | val`; 30_encoding.md R74 for the other four). -/
def encode : Instr → Word
  | .finit len ft aid =>
      0x10000000#32 ||| len.setWidth 32 <<< 24 ||| ft.setWidth 32 <<< 20 ||| aid.setWidth 32
  | .fplace tb toff w so val =>
      0x20000000#32 ||| tb.setWidth 32 <<< 24 ||| toff.setWidth 32 <<< 20 ||| w.setWidth 32 <<< 16
        ||| so.setWidth 32 <<< 12 ||| val.setWidth 32
  | .fsub => 0x30000000#32
  | .fflat => 0x40000000#32
  | .frle => 0x50000000#32
  | .fenc => 0x60000000#32

/-- The word formats of 30_encoding.md R71: descriptor, placement, no operand. -/
inductive Format where
  | D
  | P
  | N
  deriving DecidableEq, Repr

/-- One row of the match and mask table of 30_encoding.md R76, with the format of R70. -/
structure OpcodeRow where
  mnemonic : String
  format : Format
  pattern : Word
  mask : Word
  deriving DecidableEq, Repr

/-- `W & mask = match` (30_encoding.md R76). -/
def OpcodeRow.selects (r : OpcodeRow) (W : Word) : Bool := W &&& r.mask == r.pattern

/-- The column "field ranges" of 30_encoding.md R76. -/
def OpcodeRow.inRange (r : OpcodeRow) (W : Word) : Bool :=
  match r.format with
  | .D => legalLen (lenField W)
  | .P => legalTargetByte (tbField W) && legalWidth (wField W)
  | .N => true

/-- The match and mask table of 30_encoding.md R76. -/
def opcodeRows : List OpcodeRow :=
  [⟨"FINIT", .D, 0x10000000, 0xF08FFF00⟩, ⟨"FPLACE", .P, 0x20000000, 0xF0808F00⟩,
   ⟨"FSUB", .N, 0x30000000, 0xFFFFFFFF⟩, ⟨"FFLAT", .N, 0x40000000, 0xFFFFFFFF⟩,
   ⟨"FRLE", .N, 0x50000000, 0xFFFFFFFF⟩, ⟨"FENC", .N, 0x60000000, 0xFFFFFFFF⟩]

/-- The 32-bit word whose low `nbits` bits are those of `w`, the rest zero. -/
def tableWord (nbits w : Nat) : Word := BitVec.ofNat 32 (w % 2 ^ nbits)

/-- The operation the decoder reads from a word numbered as opcode_table.json numbers it (bit 0 least significant).
Every operation word is exactly 32 bits (30_encoding.md R71), so a longer one is no operation (log 9). -/
def decodeTableWord (nbits w : Nat) : Option Instr :=
  if 32 < nbits then none
  else match decode (tableWord nbits w) with
    | .operation i => some i
    | .reserved _ => none

end Sys2Proof
end

