-- ==== Sys2Proof/Machine/State.lean ====
section
/-! DEFINITION. The state of the engine: the ten registers of 10_state.md R20, "and nothing else", with the words the host is
about to issue beside them; the reset state; the reasons a step can stop. -/

namespace Sys2Proof.Machine

/-- `PHASE`, how far the current encode has got (10_state.md R25). Its 3-bit codes are `Phase.code`; values 5 to 7 never
occur (log 5). -/
inductive Phase where
  /-- 0: no frame has been initialised since reset -/
  | idle
  /-- 1: the frame holds the preamble and the fields placed so far -/
  | build
  /-- 2: the payload is substituted and the checksum code is in byte 1 -/
  | coded
  /-- 3: `BITS`, `BITLEN` hold the trimmed bit sequence of the coded frame -/
  | flat
  /-- 4: `RLE`, `RLELEN` hold the run lengths of that bit sequence -/
  | done
  deriving DecidableEq, Repr

/-- `FAULT`, the sticky cause of the first fault since reset (10_state.md R30). Its 3-bit codes are `Cause.code`; values 5 to
7 never occur (log 5). -/
inductive Cause where
  /-- 0: no fault has occurred since reset -/
  | none
  /-- 1: a reserved word was issued (60_exceptions.md R181) -/
  | illegalOperation
  /-- 2: an operation not legal in the current phase (60_exceptions.md R182) -/
  | sequence
  /-- 3: a payload byte of 64 or more at FSUB or FENC (60_exceptions.md R183) -/
  | substDomain
  /-- 4: FRLE on an empty bit sequence, unreachable (60_exceptions.md R184) -/
  | emptySequence
  deriving DecidableEq, Repr

/-- The state of the engine (10_state.md R20). -/
structure State where
  /-- `FRAME[0..8]` (R21) -/
  frame : Frame
  /-- `LEN`: 0 from reset to the first FINIT, then 6 or 9 (R26) -/
  len : BitVec 4
  /-- `SUM` (R27) -/
  sum : BitVec 16
  /-- `BITS[0..72]` (R28) -/
  bits : Vector Bit 73
  /-- `BITLEN` (R28) -/
  bitlen : BitVec 7
  /-- `RLE[0..72]` (R29) -/
  rle : Vector Byte 73
  /-- `RLELEN` (R29) -/
  rlelen : BitVec 7
  /-- `PHASE` (R25) -/
  phase : Phase
  /-- `FAULT` (R30) -/
  fault : Cause
  /-- `FINFO` (R31) -/
  finfo : Word
  /-- The model's own field: the words the host will issue, the next one first. The block itself has no queue
  (70_reset_and_hazards.md R217). DESIGN CHOICE, log 1. -/
  issued : List Word
  deriving DecidableEq, Repr

/-- Why the machine could stop. It has no constructor: the spec's four faults are recorded in `FAULT` and the halted block
goes on ignoring words (60_exceptions.md R190, R191), so no step of the model stops. Safe: nothing is cut off. -/
inductive Fault
  deriving DecidableEq, Repr

/-- Why a step could refuse. -/
inductive Refusal where
  /-- Raised by `exec` for an operation that has no meaning yet, by its mnemonic; no arm does. Safe. -/
  | notModelled (mnemonic : String)
  deriving DecidableEq, Repr

/-- The outcome of an operation or a step. -/
abbrev Result := Host.Outcome State Fault Refusal

/-- The reset state: every register zero, PHASE IDLE, no fault (10_state.md R34, 70_reset_and_hazards.md R210). No word is
waiting (log 1). -/
def State.reset : State where
  frame := Vector.replicate 9 0
  len := 0
  sum := 0
  bits := Vector.replicate 73 false
  bitlen := 0
  rle := Vector.replicate 73 0
  rlelen := 0
  phase := .idle
  fault := .none
  finfo := 0
  issued := []

end Sys2Proof.Machine
end

