-- ==== Sys2Proof/Machine/Flags.lean ====
section
/-! DEFINITION. The block has no condition codes (10_state.md R32). What every operation checks and what a fault reports stand
here: the codes of PHASE and FAULT, the phases an operation is legal in, the information words. -/

namespace Sys2Proof.Machine

/-- The 3-bit value of `PHASE` (10_state.md R25). -/
def Phase.code : Phase → BitVec 3
  | .idle => 0
  | .build => 1
  | .coded => 2
  | .flat => 3
  | .done => 4

/-- The 3-bit value of `FAULT` (10_state.md R30, 60_exceptions.md R180). -/
def Cause.code : Cause → BitVec 3
  | .none => 0
  | .illegalOperation => 1
  | .sequence => 2
  | .substDomain => 3
  | .emptySequence => 4

/-- The phases in which an operation is in order: the *Order* line of its rule (40_frame_build.md R104, R105,
41_frame_encode.md R123, R126, 42_run_length.md R142, R145) and opcode_table.json's legal_phases. -/
def legalPhases : Instr → List Phase
  | .finit _ _ _ => [.idle, .build, .coded, .flat, .done]
  | .fplace _ _ _ _ _ => [.build]
  | .fsub => [.build]
  | .fflat => [.coded]
  | .frle => [.flat]
  | .fenc => [.build]

/-- The operation is in order in this phase (60_exceptions.md R182). -/
def inOrder (i : Instr) (p : Phase) : Bool := (legalPhases i).contains p

/-- SubstDomain's information word: the index in bits [3:0], the byte in bits [15:8], 0 elsewhere (10_state.md R31,
60_exceptions.md R180). -/
def substDomainInfo (i : Nat) (b : Byte) : Word := b.setWidth 32 <<< 8 ||| (BitVec.ofNat 4 i).setWidth 32

end Sys2Proof.Machine
end

