-- ==== Sys2Proof/Machine/Ops.lean ====
section
/-! DEFINITION. The operations over the state that the meanings share: the assignments of the pseudocode, one a register;
taking a fault (60_exceptions.md R190); the checks of one issued word in their order (R186); what the host does. There is no
return from a fault (R192). -/

namespace Sys2Proof.Machine

/-- `FRAME[0..8] <- f`. -/
def State.setFrame (s : State) (f : Frame) : State := { s with frame := f }

/-- `LEN <- n`. -/
def State.setLen (s : State) (n : BitVec 4) : State := { s with len := n }

/-- `SUM <- n`. -/
def State.setSum (s : State) (n : BitVec 16) : State := { s with sum := n }

/-- `PHASE <- p`. -/
def State.setPhase (s : State) (p : Phase) : State := { s with phase := p }

/-- `BITS[0..72] <- v`. -/
def State.setBits (s : State) (v : Vector Bit 73) : State := { s with bits := v }

/-- `BITLEN <- n`. -/
def State.setBitlen (s : State) (n : BitVec 7) : State := { s with bitlen := n }

/-- `RLE[0..72] <- v`. -/
def State.setRle (s : State) (v : Vector Byte 73) : State := { s with rle := v }

/-- `RLELEN <- n`. -/
def State.setRlelen (s : State) (n : BitVec 7) : State := { s with rlelen := n }

/-- A list cut or filled with `d` to exactly `n` entries. -/
def padTo {α : Type} (n : Nat) (d : α) (l : List α) : List α :=
  match n, l with
  | 0, _ => []
  | n + 1, [] => d :: padTo n d []
  | n + 1, a :: rest => a :: padTo n d rest

theorem padTo_length {α : Type} (n : Nat) (d : α) (l : List α) : (padTo n d l).length = n := by
  induction n generalizing l with
  | zero => rfl
  | succ n ih => cases l <;> simp [padTo, ih]

/-- `BITS[k] <- seq[k]`, zero beyond the sequence: all 73 entries (10_state.md R28, 41_frame_encode.md R126). -/
def fillBits (seq : List Bit) : Vector Bit 73 := ⟨⟨padTo 73 false seq⟩, padTo_length 73 false seq⟩

/-- `RLE[j] <- trunc_8(out[j])`, zero beyond the run lengths: all 73 entries, the sentinel among them (10_state.md R29,
42_run_length.md R142). -/
def fillRuns (out : List Nat) : Vector Byte 73 :=
  ⟨⟨padTo 73 0 (out.map (BitVec.ofNat 8))⟩, padTo_length 73 0 (out.map (BitVec.ofNat 8))⟩

/-- `BITLEN <- len(seq)` and `BITS` filled from `seq` (41_frame_encode.md R126). -/
def State.writeBitSequence (s : State) (seq : List Bit) : State :=
  (s.setBitlen (BitVec.ofNat 7 seq.length)).setBits (fillBits seq)

/-- `RLELEN <- len(out)` and `RLE` filled from `out` (42_run_length.md R142). -/
def State.writeRunLengths (s : State) (out : List Nat) : State :=
  (s.setRlelen (BitVec.ofNat 7 out.length)).setRle (fillRuns out)

/-- `BITS[0 .. BITLEN-1]`, the bit sequence FRLE reads (10_state.md R28). -/
def State.bitSequence (s : State) : List Bit := s.bits.toList.take s.bitlen.toNat

/-- Trap entry: `FAULT <- code`, `FINFO <- info`, and no other register changes (60_exceptions.md R190). -/
def State.trapEntry (s : State) (c : Cause) (info : Word) : State := { s with fault := c, finfo := info }

/-- `raise <Fault>(info)`: trap entry on the state before the operation, whose other assignments are discarded
(00_scope.md R9). The machine goes on, halted. -/
def raise (c : Cause) (info : Word) (s : State) : Result := .next (s.trapEntry c info)

/-- The block is halted: `FAULT != 0` (60_exceptions.md R191). -/
def State.halted (s : State) : Bool := s.fault != .none

/-- An issued word that spells no operation (30_encoding.md R77, 60_exceptions.md R181): ignored when halted, else
IllegalOperation with the word. -/
def reservedWord (W : Word) (s : State) : Result :=
  if s.halted then .next s else raise .illegalOperation W s

/-- The checks of one issued operation, in the order of 60_exceptions.md R186: (0) a halted block ignores it;
(1) operands outside their legal ranges, which only a reserved word spells, raise IllegalOperation with that word (log 4);
(2) an operation out of order raises Sequence with its word; then the operation's effect, which makes its own check (3). -/
def runOperation (i : Instr) (effect : State → Result) (s : State) : Result :=
  if s.halted then .next s
  else if ¬ i.wellFormed then raise .illegalOperation (encode i) s
  else if ¬ inOrder i s.phase then raise .sequence (encode i) s
  else effect s

/-- The words the host has yet to issue, replaced: the model's own field (log 1). -/
def State.setIssued (s : State) (ws : List Word) : State := { s with issued := ws }

/-- The host issues the next word of its list (70_reset_and_hazards.md R217 (a)); `none` when it issues nothing (log 1). -/
def nextIssued (s : State) : Option (Word × State) :=
  match s.issued with
  | [] => none
  | W :: rest => some (W, s.setIssued rest)

/-- The host applies reset (70_reset_and_hazards.md R217 (c), R210): every register in its reset state. The words the host has
yet to issue are its own. No step of a run does this (R210). -/
def hostReset (s : State) : State := State.reset.setIssued s.issued

end Sys2Proof.Machine
end

