-- ==== Sys2Proof/Machine/FrameBuild.lean ====
section
/-! DEFINITION. Frame building: FINIT and FPLACE (40_frame_build.md). -/

namespace Sys2Proof.Machine

/-- FINIT in order (40_frame_build.md R104): `FRAME`, `LEN`, `PHASE` are written, the previous output stays. -/
def finitEffect (len : BitVec 4) (ft : BitVec 3) (aid : Byte) (s : State) : Result :=
  .next (((s.setFrame (initFrame len ft aid)).setLen len).setPhase .build)

/-- FINIT len, ft, aid (40_frame_build.md R104). -/
def execFinit (len : BitVec 4) (ft : BitVec 3) (aid : Byte) (s : State) : Result :=
  runOperation (.finit len ft aid) (finitEffect len ft aid) s

/-- FPLACE in order (40_frame_build.md R105): `FRAME[tb]` only; `PHASE` stays BUILD. -/
def fplaceEffect (tb : BitVec 4) (toff : BitVec 3) (w : BitVec 4) (so : BitVec 3) (val : Byte) (s : State) : Result :=
  .next (s.setFrame (placeField s.frame tb toff w so val))

/-- FPLACE tb, to, w, so, val (40_frame_build.md R105). -/
def execFplace (tb : BitVec 4) (toff : BitVec 3) (w : BitVec 4) (so : BitVec 3) (val : Byte) (s : State) : Result :=
  runOperation (.fplace tb toff w so val) (fplaceEffect tb toff w so val) s

end Sys2Proof.Machine
end

