-- ==== Sys2Proof/Config.lean ====
section
/-! DEFINITION. The one open parameter of the block: the substitution table SUBST (00_scope.md R5, 20_memory.md R56).
The spec prints none of its 64 values, so no value is given here and Lean can prove none. -/

namespace Sys2Proof

/-- What 20_memory.md R56 lets a model assume of the table, and nothing else: (b) the entries are pairwise distinct;
(c) no entry is `0x00` or `0xFF`. (a), the 64 entries of 8 bits, is the type `Table`. -/
def Table.Admissible (T : Table) : Prop :=
  Function.Injective T ∧ ∀ i, T i ≠ 0x00#8 ∧ T i ≠ 0xFF#8

/-- The table that lists, for index `i`, one more than the image of `i` under a permutation of 0 .. 253.
These tables are exactly the admissible ones (`Table.ofPerm_admissible`, `Table.admissible_is_ofPerm`). -/
def Table.ofPerm (p : Equiv.Perm (Fin 254)) : Table :=
  fun i => BitVec.ofNat 8 ((p ⟨i.toNat, Nat.lt_trans i.isLt (by decide)⟩).val + 1)

/-- The free parameter behind SUBST. It has no body: no proof can see which permutation it is.
DESIGN CHOICE (log 3): a permutation of the 254 admissible codes, of which the first 64 are the table, so that
R56's constraints are provable facts and need no assumption. -/
opaque Config.substPerm : Equiv.Perm (Fin 254)

/-- `SUBST[0..63]`, constant for the life of the block (20_memory.md R56): some admissible table. -/
def Config.subst : Table := Table.ofPerm Config.substPerm

end Sys2Proof
end

