-- ==== Sys2Proof/Machine/FrameEncode.lean ====
section
/-! DEFINITION. Frame encoding: substitution, checksum, flatten with trim; FSUB and FFLAT (41_frame_encode.md). The functions
take the table as an argument; the block's own is Config.subst. -/

namespace Sys2Proof.Machine

/-- The payload byte indices 2 to `len - 1`, ascending (20_memory.md R57). Only frame bytes are listed (log 6). -/
def payload (len : BitVec 4) : List Nat := (List.range 9).filter fun i => decide (2 ≤ i) && decide (i < len.toNat)

/-- `MemRead(SUBST, b, 1)` for a byte in the table's domain, 0 to 63 (00_scope.md R8). The domain check comes first, so no
index of 64 or more reaches it (20_memory.md R56). -/
def readTable (T : Table) (b : Byte) : Byte := T (b.setWidth 6)

/-- The lowest payload index whose byte is 64 or more (41_frame_encode.md R121, domain check). -/
def firstOutside (f : Frame) (len : BitVec 4) : Option Nat :=
  (payload len).find? fun i => decide (substEntries ≤ (readByte f i).toNat)

/-- Step 1 over a list of byte indices: each byte is replaced by its code and the codes are summed in 16 bits
(41_frame_encode.md R121, R122). -/
def substituteBytes (T : Table) : List Nat → Frame → BitVec 16 → Frame × BitVec 16
  | [], f, sum => (f, sum)
  | i :: rest, f, sum =>
      let c := readTable T (readByte f i)
      substituteBytes T rest (writeByte f i c) (sum + c.setWidth 16)

/-- `chk = (sum >> 2) & 0x3F`, 6 bits (41_frame_encode.md R121 step 2). -/
def checksum (sum : BitVec 16) : BitVec 6 := ((sum >>> chkShift) &&& chkMask).setWidth 6

/-- What `substitute` returns: the coded frame and the sum, or SubstDomain with the index and the byte. -/
inductive Substituted where
  | coded (frame : Frame) (sum : BitVec 16)
  | outside (index : Nat) (byte : Byte)
  deriving DecidableEq, Repr

/-- `substitute(f, len)` (41_frame_encode.md R121). -/
def substitute (T : Table) (f : Frame) (len : BitVec 4) : Substituted :=
  match firstOutside f len with
  | some i => .outside i (readByte f i)
  | none =>
      let (g, sum) := substituteBytes T (payload len) f 0
      .coded (writeByte g 1 (T (checksum sum))) sum

/-- FSUB in order (41_frame_encode.md R123), under the table `T`. -/
def fsubEffect (T : Table) (s : State) : Result :=
  match substitute T s.frame s.len with
  | .outside i b => raise .substDomain (substDomainInfo i b) s
  | .coded g sum => .next (((s.setFrame g).setSum sum).setPhase .coded)

/-- FSUB (41_frame_encode.md R123). -/
def execFsub (s : State) : Result := runOperation .fsub (fsubEffect Config.subst) s

/-- The bits of one byte, least significant first (20_memory.md R51). -/
def byteBits (b : Byte) : List Bit := (List.range 8).map fun k => b.getLsbD k

/-- The 72-bit string of the frame, byte 0 first (20_memory.md R51). -/
def frameBits (f : Frame) : List Bit := f.toList.flatMap byteBits

/-- The scan of 41_frame_encode.md R125: a bit is appended once the first 1-bit has been observed. -/
def scanBits (seen : Bool) : List Bit → List Bit
  | [] => []
  | bit :: rest =>
      let seen := seen || bit
      if seen then bit :: scanBits seen rest else scanBits seen rest

/-- Trailing 0-bits removed from the end of a sequence (41_frame_encode.md R125, the `while` loop). -/
def dropTrailingZeros : List Bit → List Bit
  | [] => []
  | bit :: rest =>
      match dropTrailingZeros rest with
      | [] => if bit then [bit] else []
      | kept => bit :: kept

/-- `flatten(f)` (41_frame_encode.md R125): all nine bytes, whatever the frame length. -/
def flatten (f : Frame) : List Bit := dropTrailingZeros (scanBits false (frameBits f))

/-- FFLAT in order (41_frame_encode.md R126). -/
def fflatEffect (s : State) : Result := .next ((s.writeBitSequence (flatten s.frame)).setPhase .flat)

/-- FFLAT (41_frame_encode.md R126). -/
def execFflat (s : State) : Result := runOperation .fflat fflatEffect s

end Sys2Proof.Machine
end

