-- ==== Sys2Proof/Machine/RunLength.lean ====
section
/-! DEFINITION. Run-length encoding and the whole encode: FRLE and FENC (42_run_length.md). -/

namespace Sys2Proof.Machine

/-- The walk of 42_run_length.md R141 with the current bit value and the run counter. -/
def rleWalk (cur : Bit) (cnt : Nat) : List Bit → List Nat
  | [] => [cnt]
  | b :: rest => if b = cur then rleWalk cur (cnt + 1) rest else cnt :: rleWalk (!cur) 1 rest

/-- `rle(s)` (42_run_length.md R141), not defined on the empty sequence. -/
def rle : List Bit → Option (List Nat)
  | [] => none
  | b :: rest => some (rleWalk b 1 rest)

/-- FRLE in order (42_run_length.md R142). The sequence `BITS[0 .. BITLEN-1]` is empty exactly when `BITLEN = 0`. -/
def frleEffect (s : State) : Result :=
  match rle s.bitSequence with
  | none => raise .emptySequence 0 s
  | some out => .next ((s.writeRunLengths out).setPhase .done)

/-- FRLE (42_run_length.md R142). -/
def execFrle (s : State) : Result := runOperation .frle frleEffect s

/-- What `encode(f, len)` returns: the coded frame, the sum, the bit sequence and the run lengths, or a fault. -/
inductive Encoded where
  | complete (frame : Frame) (sum : BitVec 16) (seq : List Bit) (out : List Nat)
  | outside (index : Nat) (byte : Byte)
  | empty
  deriving DecidableEq, Repr

/-- `encode(f, len)` (42_run_length.md R146): the composition of the three stage functions. -/
def encodeFrame (T : Table) (f : Frame) (len : BitVec 4) : Encoded :=
  match substitute T f len with
  | .outside i b => .outside i b
  | .coded g sum =>
      match rle (flatten g) with
      | none => .empty
      | some out => .complete g sum (flatten g) out

/-- FENC in order (42_run_length.md R145), under the table `T`. An empty bit sequence cannot arise (R145); the definition is
total with FRLE's fault there (log 7). -/
def fencEffect (T : Table) (s : State) : Result :=
  match encodeFrame T s.frame s.len with
  | .outside i b => raise .substDomain (substDomainInfo i b) s
  | .empty => raise .emptySequence 0 s
  | .complete g sum seq out =>
      .next (((((s.setFrame g).setSum sum).writeBitSequence seq).writeRunLengths out).setPhase .done)

/-- FENC (42_run_length.md R145). -/
def execFenc (s : State) : Result := runOperation .fenc (fencEffect Config.subst) s

end Sys2Proof.Machine
end

