-- ==== Sys2Proof/Machine/Dispatch.lean ====
section
/-! DEFINITION. One arm per operation (30_encoding.md R70). -/

namespace Sys2Proof.Machine

/-- The host issues the word of operation `i` (60_exceptions.md R186 gives the checks, in each meaning). -/
def exec (i : Instr) (s : State) : Host.Outcome State Fault Refusal :=
  match i with
  | .finit len ft aid => Sys2Proof.Machine.execFinit len ft aid s
  | .fplace tb toff w so val => Sys2Proof.Machine.execFplace tb toff w so val s
  | .fsub => Sys2Proof.Machine.execFsub s
  | .fflat => Sys2Proof.Machine.execFflat s
  | .frle => Sys2Proof.Machine.execFrle s
  | .fenc => Sys2Proof.Machine.execFenc s

end Sys2Proof.Machine
end

