-- ==== Sys2Proof/Machine/Issue.lean ====
section
/-! DEFINITION. Issuing one operation word (70_reset_and_hazards.md R217 (a)). -/

namespace Sys2Proof.Machine

/-- The block receives the word `W` and executes it atomically (30_encoding.md R82, 60_exceptions.md R186). -/
def issueWord (W : Word) (s : State) : Result :=
  match decode W with
  | .operation i => exec i s
  | .reserved _ => reservedWord W s

end Sys2Proof.Machine
end

