-- ==== Sys2Proof/Machine/Step.lean ====
section
/-! DEFINITION. One step: the host issues its next word and the block executes it (00_scope.md R11). -/

namespace Sys2Proof.Machine

/-- One step. When the host has no word to issue, nothing happens: only an operation or reset changes the block
(70_reset_and_hazards.md R210; log 1). -/
def step (s : State) : Host.Outcome State Fault Refusal :=
  match nextIssued s with
  | none => .next s
  | some (W, s') => issueWord W s'

/-- The state in which the next word the host issues is the given one (log 2). -/
def State.withFetchWord (s : State) (nbits w : Nat) : State :=
  s.setIssued (tableWord nbits w :: s.issued)

end Sys2Proof.Machine
end

