-- ==== Sys2Proof/Machine/Observe.lean ====
section
/-! DEFINITION. What the host reads between operations (70_reset_and_hazards.md R217 (b), 20_memory.md R63) and how the consumer
takes the output (R143, R218, R221). Reading changes nothing: these are functions of the state. -/

namespace Sys2Proof.Machine

/-- A register the host may read (70_reset_and_hazards.md R217 (b)), by name; no register has an address (10_state.md
section 4). -/
inductive HostRegister where
  | frame (i : Fin 9)
  | len
  | sum
  | bits (k : Fin 73)
  | bitlen
  | rle (k : Fin 73)
  | rlelen
  | phase
  | fault
  | finfo
  deriving DecidableEq, Repr

/-- The value the host reads, as an unsigned integer (00_scope.md R7). -/
def hostRead (s : State) : HostRegister → Nat
  | .frame i => s.frame[i].toNat
  | .len => s.len.toNat
  | .sum => s.sum.toNat
  | .bits k => s.bits[k].toNat
  | .bitlen => s.bitlen.toNat
  | .rle k => s.rle[k].toNat
  | .rlelen => s.rlelen.toNat
  | .phase => s.phase.code.toNat
  | .fault => s.fault.code.toNat
  | .finfo => s.finfo.toNat

/-- `RLE[0 .. RLELEN-1]`, the run lengths (70_reset_and_hazards.md R217). -/
def runLengths (s : State) : List Nat := (s.rle.toList.take s.rlelen.toNat).map BitVec.toNat

/-- The run lengths taken up to the first zero entry (42_run_length.md R143, 70_reset_and_hazards.md R221). -/
def runsToSentinel (s : State) : List Nat := (s.rle.toList.map BitVec.toNat).takeWhile (· ≠ 0)

/-- The output is that of the current frame: `PHASE = DONE` and `FAULT = 0` (70_reset_and_hazards.md R218). -/
def outputFresh (s : State) : Bool := s.phase == .done && s.fault == .none

/-- Run lengths expanded back into bits: run `j` is a run of `first` for even `j`, of its opposite for odd `j`
(42_run_length.md R144 (3)). -/
def expandRuns (first : Bit) : List Nat → List Bit
  | [] => []
  | n :: rest => List.replicate n first ++ expandRuns (!first) rest

/-- The pulse train the consumer drives: the first run is a mark, the emitter on (42_run_length.md R143). -/
def pulses (s : State) : List Bit := expandRuns true (runLengths s)

end Sys2Proof.Machine
end

