-- ==== Sys2Proof/Machine/Variants.lean ====
section
/-! DEFINITION. The host's side as far as the spec prints it (43_command_variants.md): descriptors, field specs, the encode
program. None of this is behaviour of the block (R160). The field layouts of the variants are not printed (N3). -/

namespace Sys2Proof.Machine

/-- The seven named command variants (43_command_variants.md R162, 90_conflicts.md C1). -/
inductive CommandVariant where
  | singleColor
  | singleColorExtended
  | setColor
  | setConfig
  | twoColor
  | setRepeatDelayTime
  | setRepeatCount
  deriving DecidableEq, Repr

/-- The CommandDescriptor: length, flagsType, actionId (0 for none), the operands of FINIT (00_scope.md R12). -/
structure CommandDescriptor where
  len : BitVec 4
  ft : BitVec 3
  aid : Byte
  deriving DecidableEq, Repr

/-- The descriptor table (43_command_variants.md R162). -/
def CommandVariant.descriptor : CommandVariant → CommandDescriptor
  | .singleColor => ⟨6, 0b000, 0⟩
  | .singleColorExtended => ⟨9, 0b000, 0⟩
  | .setColor => ⟨9, 0b111, 0⟩
  | .setConfig => ⟨6, 0b001, 0⟩
  | .twoColor => ⟨9, 0b010, 0⟩
  | .setRepeatDelayTime => ⟨9, 0b111, 7⟩
  | .setRepeatCount => ⟨9, 0b111, 8⟩

/-- The FINIT of a descriptor. -/
def CommandDescriptor.finit (d : CommandDescriptor) : Instr := .finit d.len d.ft d.aid

/-- A field placement: a FieldSpec (00_scope.md R12) with the 8-bit value it takes. -/
structure Placement where
  tb : BitVec 4
  toff : BitVec 3
  w : BitVec 4
  so : BitVec 3
  val : Byte
  deriving DecidableEq, Repr

/-- The FPLACE of a placement. -/
def Placement.fplace (p : Placement) : Instr := .fplace p.tb p.toff p.w p.so p.val

/-- The operands of the placement's FPLACE are in their legal ranges. -/
def Placement.legal (p : Placement) : Bool := p.fplace.wellFormed

/-- The bits the placement ORs into its target byte (40_frame_build.md R106). -/
def Placement.mask (p : Placement) : Byte := extract p.val p.so p.w <<< p.toff.toNat

/-- The encode program (43_command_variants.md R161), with FENC as its last operation. -/
def encodeProgram (d : CommandDescriptor) (ps : List Placement) : List Instr :=
  d.finit :: ps.map Placement.fplace ++ [.fenc]

/-- The encode program stage by stage (43_command_variants.md R161): FSUB, FFLAT, FRLE in place of FENC. -/
def encodeProgramStages (d : CommandDescriptor) (ps : List Placement) : List Instr :=
  d.finit :: ps.map Placement.fplace ++ [.fsub, .fflat, .frle]

end Sys2Proof.Machine
end

