-- ==== Sys2Proof/Safety.lean ====
section
/-! DEFINITION. What claims are stated in: runs of operations, the invariant of 10_state.md R35, the order table and the
accepted sequences of 60_exceptions.md R182, the meaning of the output by phase (20_memory.md R63). -/

namespace Sys2Proof.Machine

/-- The host issues operations one after the other (20_memory.md R58), stopping if one stops. -/
def runOps : List Instr → State → Result
  | [], s => .next s
  | i :: is, s =>
      match exec i s with
      | .next t => runOps is t
      | .fault r => .fault r
      | .refused r => .refused r

/-- A run is safe when no fault is recorded (60_exceptions.md R191: a claim about a run takes this as a premise). -/
def State.safe (s : State) : Bool := s.fault == .none

/-- The invariant of 10_state.md R35. Its clauses about the history since reset are properties of steps and stand as
statements of their own. -/
structure StateInv (s : State) : Prop where
  /-- item 1: in IDLE every register but FAULT and FINFO holds its reset value -/
  idleIsReset : s.phase = .idle →
    s = { State.reset with fault := s.fault, finfo := s.finfo, issued := s.issued }
  /-- item 2: outside IDLE, LEN is 6 or 9 -/
  lenLegal : s.phase ≠ .idle → s.len = 6 ∨ s.len = 9
  /-- item 2: outside IDLE, FRAME[0][7] = 1 -/
  magicBit : s.phase ≠ .idle → (readByte s.frame 0).getLsbD 7 = true
  /-- item 3: the bit sequence is empty or starts and ends with 1 -/
  bitsTrimmed : s.bitlen = 0 ∨ (s.bits[0]? = some true ∧ s.bits[s.bitlen.toNat - 1]? = some true)
  /-- item 3: BITS is 0 from BITLEN on -/
  bitsZeroBeyond : ∀ k : Fin 73, s.bitlen.toNat ≤ k.val → s.bits[k] = false
  /-- item 3 -/
  bitlenBound : s.bitlen.toNat ≤ 72
  /-- item 4: every run is at least 1 -/
  runsPositive : ∀ k : Fin 73, k.val < s.rlelen.toNat → 1 ≤ s.rle[k].toNat
  /-- item 4: RLE is 0 from RLELEN on -/
  runsZeroBeyond : ∀ k : Fin 73, s.rlelen.toNat ≤ k.val → s.rle[k] = 0
  /-- item 4 -/
  rlelenBound : s.rlelen.toNat ≤ 71
  /-- item 4: RLELEN is 0 or odd -/
  rlelenOdd : s.rlelen.toNat = 0 ∨ s.rlelen.toNat % 2 = 1
  /-- item 5 -/
  flatNonempty : s.phase = .flat ∨ s.phase = .done → 1 ≤ s.bitlen.toNat
  /-- item 5: in DONE the runs add up to BITLEN -/
  doneSum : s.phase = .done → (runLengths s).sum = s.bitlen.toNat
  /-- item 5: in DONE the runs are those of the bit sequence -/
  doneRuns : s.phase = .done → rle s.bitSequence = some (runLengths s)
  /-- item 6 -/
  sumBound : s.sum.toNat ≤ 1785
  /-- item 7 -/
  noFaultNoInfo : s.fault = .none → s.finfo = 0

/-- `BITS` is the bit sequence of the frame in FLAT and DONE (20_memory.md R63, 10_state.md R25). -/
def BitsOfFrame (s : State) : Prop :=
  s.phase = .flat ∨ s.phase = .done → s.bitSequence = flatten s.frame

/-- The substituted payload adds up to SUM and byte 1 holds the code of its checksum, in CODED, FLAT and DONE
(10_state.md R25, 20_memory.md R57, 41_frame_encode.md R121). -/
def ChecksumOfFrame (s : State) : Prop :=
  s.phase = .coded ∨ s.phase = .flat ∨ s.phase = .done →
    s.sum.toNat = ((payload s.len).map fun i => (readByte s.frame i).toNat).sum
      ∧ readByte s.frame 1 = Config.subst (checksum s.sum)

/-- The table of 60_exceptions.md R182: the phase after an operation, `none` where it raises Sequence. -/
def phaseAfter (p : Phase) : Instr → Option Phase
  | .finit _ _ _ => some .build
  | .fplace _ _ _ _ _ => if p = .build then some .build else none
  | .fsub => if p = .build then some .coded else none
  | .fflat => if p = .coded then some .flat else none
  | .frle => if p = .flat then some .done else none
  | .fenc => if p = .build then some .done else none

/-- `FINIT FPLACE* (FSUB FFLAT FRLE | FENC)`, cut short at any point (60_exceptions.md R182): the operations of one encode. -/
def EncodeBlock (is : List Instr) : Prop :=
  ∃ len ft aid, ∃ ps : List Placement, ∃ tail : List Instr,
    is = .finit len ft aid :: ps.map Placement.fplace ++ tail
      ∧ tail ∈ [[], [.fsub], [.fsub, .fflat], [.fsub, .fflat, .frle], [.fenc]]

/-- The accepted sequences of 60_exceptions.md R182: repetitions of the pattern. -/
def AcceptedSequence (is : List Instr) : Prop :=
  ∃ blocks : List (List Instr), is = blocks.flatten ∧ ∀ b ∈ blocks, EncodeBlock b

/-- Two states agree on the current encode, as far as the host may read it by phase (20_memory.md R63): FRAME, LEN, PHASE and
FAULT always, SUM once coded, the bit sequence once flat, the run lengths once done. -/
def SameCurrentEncode (s t : State) : Prop :=
  s.frame = t.frame ∧ s.len = t.len ∧ s.phase = t.phase ∧ s.fault = t.fault
    ∧ (s.phase = .coded ∨ s.phase = .flat ∨ s.phase = .done → s.sum = t.sum)
    ∧ (s.phase = .flat ∨ s.phase = .done → s.bits = t.bits ∧ s.bitlen = t.bitlen)
    ∧ (s.phase = .done → s.rle = t.rle ∧ s.rlelen = t.rlelen)

end Sys2Proof.Machine
end

