-- ==== Sys2Proof/Certificates/Slice0/Obligations.lean ====
section
/-! DEFINITION. The statements about the FieldSpec engine, for the provers. Each docstring says which rule it formalises. -/

open Sys2Proof Sys2Proof.Machine

/-! ### Words and decoding (30_encoding.md) -/

/-- R72 to R75, R82: for every operation with legal operands, at every value of every operand, the decoder reads it back from
its word. -/
def Obligations.DecodingAnEncodedOperationGivesItBack : Prop :=
  ∀ i : Instr, i.wellFormed = true → decode (encode i) = .operation i

/-- R82: a word that decodes is the one word of its operation, whose operands are legal: no bit of the word is ignored. -/
def Obligations.EncodingADecodedWordGivesItBack : Prop :=
  ∀ (W : Word) (i : Instr), decode W = .operation i → i.wellFormed = true ∧ encode i = W

/-- R77, R82 step 5: operands outside their legal ranges are spelled by reserved words. That the decoder
names a class, and names the target byte where the width is illegal too, is the model's choice (log 11). -/
def Obligations.IllegalOperandsEncodeToReservedWords : Prop :=
  (∀ len ft aid, ¬ (len = 6 ∨ len = 9) → decode (encode (.finit len ft aid)) = .reserved .frameLength)
    ∧ (∀ tb toff w so val, 9 ≤ tb.toNat →
        decode (encode (.fplace tb toff w so val)) = .reserved .targetByte)
    ∧ ∀ tb toff w so val, tb.toNat ≤ 8 → (w = 0 ∨ 9 ≤ w.toNat) →
        decode (encode (.fplace tb toff w so val)) = .reserved .width

/-- R76: a word selects a row of the match and mask table with its operand fields in their ranges exactly when it decodes to
that row's operation; no word selects two rows. -/
def Obligations.MatchAndMaskSelectTheDecodedRow : Prop :=
  (∀ (W : Word), ∀ r ∈ opcodeRows,
      (r.selects W = true ∧ r.inRange W = true) ↔ ∃ i, decode W = .operation i ∧ i.mnemonic = r.mnemonic)
    ∧ ∀ W : Word, opcodeRows.Pairwise fun r r' => ¬ (r.selects W = true ∧ r'.selects W = true)

/-- R75: the operands of a decoded word are its contiguous fields. -/
def Obligations.OperandsAreTheFieldsOfTheWord : Prop :=
  ∀ W : Word,
    (∀ len ft aid, decode W = .operation (.finit len ft aid) →
        len = W.extractLsb' 24 4 ∧ ft = W.extractLsb' 20 3 ∧ aid = W.extractLsb' 0 8)
      ∧ ∀ tb toff w so val, decode W = .operation (.fplace tb toff w so val) →
          tb = W.extractLsb' 24 4 ∧ toff = W.extractLsb' 20 3 ∧ w = W.extractLsb' 16 4
            ∧ so = W.extractLsb' 12 3 ∧ val = W.extractLsb' 0 8

/-- R77: the reserved words are exactly those of the listed classes, the all-zero and all-ones words among them; issuing one
to a block that is not halted raises IllegalOperation and changes no other state; a FieldSpec whose fields are in range is
never reserved, well-formed or not. -/
def Obligations.ReservedWordsAreTheListedClasses : Prop :=
  (∀ W : Word,
      (∃ why, decode W = .reserved why) ↔
        let op := W.extractLsb' 28 4
        op = 0 ∨ 7 ≤ op.toNat
          ∨ (op = 1 ∧ (W.extractLsb' 23 1 ≠ 0 ∨ W.extractLsb' 8 12 ≠ 0
              ∨ (W.extractLsb' 24 4 ≠ 6 ∧ W.extractLsb' 24 4 ≠ 9)))
          ∨ (op = 2 ∧ (W.extractLsb' 23 1 ≠ 0 ∨ W.extractLsb' 15 1 ≠ 0 ∨ W.extractLsb' 8 4 ≠ 0
              ∨ 9 ≤ (W.extractLsb' 24 4).toNat ∨ W.extractLsb' 16 4 = 0 ∨ 9 ≤ (W.extractLsb' 16 4).toNat))
          ∨ ((op = 3 ∨ op = 4 ∨ op = 5 ∨ op = 6) ∧ W.extractLsb' 0 28 ≠ 0))
    ∧ (∃ why, decode 0x00000000 = .reserved why) ∧ (∃ why, decode 0xFFFFFFFF = .reserved why)
    ∧ (∀ (W : Word) (s : State) why, decode W = .reserved why → s.fault = .none →
        issueWord W s = .next { s with fault := .illegalOperation, finfo := W })
    ∧ ∀ tb toff w so val, tb.toNat ≤ 8 → 1 ≤ w.toNat → w.toNat ≤ 8 →
        decode (encode (.fplace tb toff w so val)) = .operation (.fplace tb toff w so val)

/-- The words of 95_test_vectors.md 2.1 and section 3, written out by the spec, decode as it says. -/
def Obligations.PrintedWordsDecodeAsPrinted : Prop :=
  decode 0x16000000 = .operation (.finit 6 0 0)
    ∧ decode 0x19700008 = .operation (.finit 9 7 8)
    ∧ decode 0x167000FF = .operation (.finit 6 7 255)
    ∧ decode 0x240620FF = .operation (.fplace 4 0 6 2 0xFF)
    ∧ decode 0x287870FF = .operation (.fplace 8 7 8 7 0xFF)
    ∧ decode 0x2503302D = .operation (.fplace 5 0 3 3 0x2D)
    ∧ decode 0x30000000 = .operation .fsub ∧ decode 0x40000000 = .operation .fflat
    ∧ decode 0x50000000 = .operation .frle ∧ decode 0x60000000 = .operation .fenc
    ∧ decode 0x19000100 = .reserved .mustBeZero ∧ decode 0x29010001 = .reserved .targetByte
    ∧ decode 0x20090001 = .reserved .width ∧ decode 0x17000000 = .reserved .frameLength

/-- R82: "1183748 legal words of 2^32". -/
def Obligations.LegalWordsNumber1183748 : Prop :=
  Nat.card { W : Word // ∃ i, decode W = .operation i } = 1183748

/-! ### Issuing and stepping (70_reset_and_hazards.md R217, 60_exceptions.md R186 to R191) -/

/-- A step runs the decoded operation: the next word the host issues is taken from its list and, when it decodes to `i`, the
step is `exec i` of the state with that word gone. The list is the model's own field (log 1). -/
def Obligations.StepRunsTheDecodedOperation : Prop :=
  ∀ (s : State) (W : Word) (rest : List Word) (i : Instr),
    s.issued = W :: rest → decode W = .operation i → step s = exec i { s with issued := rest }

/-- A state with a given next word (log 2) executes that word in its next step, with nothing else of it changed. -/
def Obligations.WithFetchWordIsExecutedNext : Prop :=
  ∀ (s : State) (w : Nat), step (s.withFetchWord 32 w) = issueWord (BitVec.ofNat 32 w) s

/-- When the host issues nothing the state does not change: only an operation or reset changes the block (R210). That a step
with nothing issued exists at all is the model's choice (log 1). -/
def Obligations.NothingIssuedNothingChanges : Prop :=
  ∀ s : State, s.issued = [] → step s = .next s

/-- R222, "unconditionally terminates": every operation and every step ends in a next state, never in a stop of the model, and
no operation touches the host's list. The list and the step that takes from it (log 1), that exec answers
for operands no word spells (log 4) and that the model has no stop (log 12) are the model's choice. -/
def Obligations.EveryOperationEndsInANextState : Prop :=
  (∀ (i : Instr) (s : State), ∃ t, exec i s = .next t ∧ t.issued = s.issued)
    ∧ ∀ s : State, ∃ t, step s = .next t

/-- R191: while FAULT is not 0 every word, legal or reserved, in order or not, is ignored: no register the host can read changes,
over any number of steps, which take words from the host's list (the model's choice, log 1); only reset clears the record. -/
def Obligations.HaltedBlockIgnoresEveryWord : Prop :=
  (∀ s : State, s.fault ≠ .none →
      (∀ i, exec i s = .next s) ∧ (∀ W, issueWord W s = .next s)
        ∧ ∀ k, ∃ t, Host.Core.run core k s = .next t ∧ ∀ r, hostRead t r = hostRead s r)
    ∧ ∀ s : State, (hostReset s).fault = .none

/-- R186: the checks of one issued word, in their order. (0) A halted block checks nothing. (1) A reserved word raises
IllegalOperation whatever the phase. (2) An operation not legal in the phase raises Sequence whatever the frame holds.
(3) Only an operation in order makes its own check, and whatever that reports is SubstDomain from FSUB or FENC or
EmptySequence from FRLE. -/
def Obligations.ChecksAreMadeInTheirOrder : Prop :=
  ∀ (W : Word) (s : State),
    (s.fault ≠ .none → issueWord W s = .next s)
      ∧ (s.fault = .none → ∀ why, decode W = .reserved why →
          issueWord W s = .next { s with fault := .illegalOperation, finfo := W })
      ∧ (s.fault = .none → ∀ i, decode W = .operation i → phaseAfter s.phase i = none →
          issueWord W s = .next { s with fault := .sequence, finfo := W })
      ∧ (s.fault = .none → ∀ i p, decode W = .operation i → phaseAfter s.phase i = some p →
          ∃ t, issueWord W s = .next t
            ∧ (t.fault = .none ∨ (t.fault = .substDomain ∧ (i = .fsub ∨ i = .fenc))
                ∨ (t.fault = .emptySequence ∧ i = .frle)))

/-- R190: an operation that raises a fault changes FAULT and FINFO and no other register. -/
def Obligations.TrapEntryChangesOnlyTheFaultRecord : Prop :=
  ∀ (W : Word) (s t : State), s.fault = .none → issueWord W s = .next t → t.fault ≠ .none →
    t = { s with fault := t.fault, finfo := t.finfo }

/-- R182: the table of phases. An operation in order leaves the phase of the table unless its own check faults; an operation
out of order raises Sequence with its word and changes nothing else. FINIT never raises Sequence. -/
def Obligations.OperationsFollowThePhaseTable : Prop :=
  ∀ (i : Instr) (s : State), i.wellFormed = true → s.fault = .none →
    (phaseAfter s.phase i = none → exec i s = .next { s with fault := .sequence, finfo := encode i })
      ∧ (∀ p, phaseAfter s.phase i = some p →
          ∃ t, exec i s = .next t ∧ t.fault ≠ .sequence ∧ t.fault ≠ .illegalOperation
            ∧ (t.fault = .none → t.phase = p) ∧ (t.fault ≠ .none → t.phase = s.phase))

/-- R182: the accepted sequences are exactly the repetitions of `FINIT FPLACE* (FSUB FFLAT FRLE | FENC)`, cut short anywhere.
From reset, a sequence of legal operations of that form never raises Sequence, and one that leaves no fault has that form. -/
def Obligations.AcceptedSequencesAreTheEncodePattern : Prop :=
  ∀ (is : List Instr) (t : State), (∀ i ∈ is, i.wellFormed = true) → runOps is State.reset = .next t →
    (AcceptedSequence is → t.fault ≠ .sequence) ∧ (t.fault = .none → AcceptedSequence is)

/-- An operation with operands out of range, which only a reserved word spells, raises IllegalOperation with that word in every
phase (R181, R186). That exec answers so for a term no word decodes to is the model's choice (log 4). -/
def Obligations.IllegalOperandsRaiseIllegalOperation : Prop :=
  ∀ (i : Instr) (s : State), i.wellFormed = false → s.fault = .none →
    exec i s = .next { s with fault := .illegalOperation, finfo := encode i }

/-! ### Reset and observation -/

/-- R34, R210: after reset every register the host can read holds zero, whatever the state before, the fault record too; the
initial state of a run is that state. The words still to be issued are the model's own field, and that reset keeps them is the
model's choice (log 1). -/
def Obligations.ResetLeavesEveryRegisterZero : Prop :=
  (∀ r, hostRead State.reset r = 0)
    ∧ ∀ s : State, (∀ r, hostRead (hostReset s) r = 0) ∧ (hostReset s).issued = s.issued

/-- R20, R217: the registers the host reads are all the state there is: two states that read the same differ at most in the
words still to be issued (the model's own field, log 1). -/
def Obligations.HostReadsDetermineTheState : Prop :=
  ∀ s t : State, (∀ r, hostRead s r = hostRead t r) → s = { t with issued := s.issued }

/-! ### Frame building (40_frame_build.md) -/

/-- R101: the frame FINIT leaves, byte by byte. -/
def Obligations.InitFrameBytes : Prop :=
  ∀ (len : BitVec 4) (ft : BitVec 3) (aid : Byte), len = 6 ∨ len = 9 →
    initFrame len ft aid =
      (#v[0x80, 0, ft.setWidth 8 <<< 1, 0, 0, 0, 0, if len = 9 ∧ aid ≠ 0 then aid else 0, 0] : Frame)
      ∧ (readByte (initFrame len ft aid) 2).extractLsb' 1 3 = ft
      ∧ (readByte (initFrame len ft aid) 2).toNat ≤ 0x0E

/-- R104: FINIT executes in every phase. It writes FRAME, LEN and PHASE and leaves every other register, the previous output
among them; a second FINIT wins over a first. -/
def Obligations.FinitInitialisesTheFrame : Prop :=
  ∀ (len : BitVec 4) (ft : BitVec 3) (aid : Byte) (s : State), len = 6 ∨ len = 9 → s.fault = .none →
    exec (.finit len ft aid) s =
        .next { s with
          frame := (#v[0x80, 0, ft.setWidth 8 <<< 1, 0, 0, 0, 0, if len = 9 ∧ aid ≠ 0 then aid else 0, 0] : Frame)
          len := len
          phase := .build }
      ∧ ∀ len' ft' aid', len' = 6 ∨ len' = 9 →
          runOps [.finit len' ft' aid', .finit len ft aid] s = exec (.finit len ft aid) s

/-- R102: the fragment as an integer, and as a slice of the value when the source field lies within it. -/
def Obligations.ExtractTakesTheSourceField : Prop :=
  ∀ (val : Byte) (so : BitVec 3) (w : BitVec 4), 1 ≤ w.toNat → w.toNat ≤ 8 →
    (extract val so w).toNat = (val.toNat >>> so.toNat) &&& ((1 <<< w.toNat) - 1)
      ∧ (so.toNat + w.toNat ≤ 8 → (extract val so w).toNat = (val.extractLsb' so.toNat w.toNat).toNat)
      ∧ (8 < so.toNat + w.toNat → (extract val so w).toNat = (val.extractLsb' so.toNat (8 - so.toNat)).toNat)

/-- R103: placing ORs the shifted fragment into the byte and drops what passes bit 7; nothing is dropped, for the fragments of
width `w`, exactly when `to + w <= 8`. -/
def Obligations.PlaceOrsTheShiftedFragment : Prop :=
  (∀ (byte : Byte) (toff : BitVec 3) (frag : Byte),
      (place byte toff frag).toNat = byte.toNat ||| ((frag.toNat <<< toff.toNat) % 256))
    ∧ ∀ (toff : BitVec 3) (w : BitVec 4), 1 ≤ w.toNat → w.toNat ≤ 8 →
        ((∀ frag : Byte, frag.toNat < 2 ^ w.toNat → (frag.toNat <<< toff.toNat) % 256 = frag.toNat <<< toff.toNat)
          ↔ toff.toNat + w.toNat ≤ 8)

/-- R105: FPLACE executes in BUILD. It writes FRAME[tb] by the formula and nothing else; no FieldSpec in range faults,
well-formed or not (R53). -/
def Obligations.FplacePlacesTheFragment : Prop :=
  ∀ (tb : BitVec 4) (toff : BitVec 3) (w : BitVec 4) (so : BitVec 3) (val : Byte) (s : State),
    tb.toNat ≤ 8 → 1 ≤ w.toNat → w.toNat ≤ 8 → s.fault = .none → s.phase = .build →
    ∃ f : Frame, exec (.fplace tb toff w so val) s = .next { s with frame := f }
      ∧ (readByte f tb.toNat).toNat = (readByte s.frame tb.toNat).toNat
          ||| ((((val.toNat >>> so.toNat) &&& ((1 <<< w.toNat) - 1)) <<< toff.toNat) % 256)
      ∧ ∀ j, j ≠ tb.toNat → readByte f j = readByte s.frame j

/-- R55: placements are idempotent and commute; a placement clears no bit. A frame bit is cleared only by FINIT, or by FSUB and
FENC in bytes 1 to LEN - 1. LEN is 6 or 9 outside IDLE (R35 item 2). -/
def Obligations.PlacementsOrTogether : Prop :=
  (∀ (p q : Placement) (s : State), p.legal = true → q.legal = true →
      s.fault = .none → s.phase = .build →
      runOps [p.fplace, q.fplace] s = runOps [q.fplace, p.fplace] s
        ∧ runOps [p.fplace, p.fplace] s = runOps [p.fplace] s)
    ∧ ∀ (i : Instr) (s t : State) (j k : Nat), (s.phase ≠ .idle → s.len = 6 ∨ s.len = 9) → exec i s = .next t →
        (readByte s.frame j).getLsbD k = true → (readByte t.frame j).getLsbD k = false →
        (∃ len ft aid, i = .finit len ft aid) ∨ ((i = .fsub ∨ i = .fenc) ∧ 1 ≤ j ∧ j ≤ s.len.toNat - 1)

/-- R106: after FINIT and any placements, in any order, each frame byte is the OR of its initial value and the fragments placed
in it. -/
def Obligations.PopulatedFrameIsTheOrOfItsPlacements : Prop :=
  ∀ (len : BitVec 4) (ft : BitVec 3) (aid : Byte) (ps : List Placement) (s : State),
    len = 6 ∨ len = 9 → (∀ p ∈ ps, p.legal = true) → s.fault = .none →
    ∃ f : Frame,
      runOps (.finit len ft aid :: ps.map Placement.fplace) s =
          .next { s with frame := f, len := len, phase := .build }
        ∧ (∀ i < 9, readByte f i =
            ((ps.filter fun p => p.tb.toNat == i).map Placement.mask).foldl (· ||| ·)
              (readByte (initFrame len ft aid) i))
        ∧ ∀ qs : List Placement, qs.Perm ps →
            runOps (.finit len ft aid :: qs.map Placement.fplace) s =
              .next { s with frame := f, len := len, phase := .build }

/-- R106, consequences: (1) byte 0 keeps the magic, (2) byte 2 keeps the flagsType, (3) a colour channel alone on its bits reads
back as `v >> 2`. -/
def Obligations.PopulatedFrameKeepsPreambleAndQuantises : Prop :=
  ∀ (len : BitVec 4) (ft : BitVec 3) (aid : Byte) (ps : List Placement) (s t : State),
    len = 6 ∨ len = 9 → (∀ p ∈ ps, p.legal = true) → s.fault = .none →
    runOps (.finit len ft aid :: ps.map Placement.fplace) s = .next t →
    ((∀ p ∈ ps, p.tb ≠ 0) → readByte t.frame 0 = 0x80)
      ∧ ((∀ p ∈ ps, p.tb = 2 → p.mask &&& 0x0E#8 = 0) → (readByte t.frame 2).extractLsb' 1 3 = ft)
      ∧ ∀ (front back : List Placement) (tb : BitVec 4) (toff : BitVec 3) (v : Byte),
          ps = front ++ ⟨tb, toff, 6, 2, v⟩ :: back → toff.toNat ≤ 2 →
          readByte (initFrame len ft aid) tb.toNat &&& (0x3F#8 <<< toff.toNat) = 0 →
          (∀ q ∈ front ++ back, q.tb = tb → q.mask &&& (0x3F#8 <<< toff.toNat) = 0) →
          (readByte t.frame tb.toNat >>> toff.toNat) &&& 0x3F#8 = v >>> 2

/-! ### Substitution and checksum (41_frame_encode.md) -/

/-- R56: the table is injective and no code is 0x00 or 0xFF. The form the model gives the open table is its own choice (log 3). -/
def Obligations.SubstitutionTableIsAdmissible : Prop :=
  Function.Injective Config.subst ∧ ∀ i, Config.subst i ≠ 0x00 ∧ Config.subst i ≠ 0xFF

/-- R56: the form the model gives the table (log 3) leaves out no table that the rule admits. -/
def Obligations.NoAdmissibleTableIsLeftOut : Prop :=
  ∀ T : Table, T.Admissible → ∃ p : Equiv.Perm (Fin 254), Table.ofPerm p = T

/-- R121, R123: FSUB executes in BUILD when every payload byte is below 64. Each payload byte becomes its code, SUM the sum of the
codes (R122), byte 1 the code of the checksum; bytes 0 and LEN to 8 and every other register stay. -/
def Obligations.FsubSubstitutesThePayload : Prop :=
  ∀ s : State, s.fault = .none → s.phase = .build → s.len = 6 ∨ s.len = 9 →
    (∀ i, 2 ≤ i → i < s.len.toNat → (readByte s.frame i).toNat < 64) →
    ∃ (f : Frame) (sum : BitVec 16),
      exec .fsub s = .next { s with frame := f, sum := sum, phase := .coded }
        ∧ (∀ i, 2 ≤ i → i < s.len.toNat → readByte f i = Config.subst ((readByte s.frame i).setWidth 6))
        ∧ sum.toNat = ((List.range' 2 (s.len.toNat - 2)).map fun i =>
            (Config.subst ((readByte s.frame i).setWidth 6)).toNat).sum
        ∧ readByte f 1 = Config.subst (BitVec.ofNat 6 ((sum.toNat >>> 2) &&& 0x3F))
        ∧ readByte f 0 = readByte s.frame 0
        ∧ ∀ j, s.len.toNat ≤ j → readByte f j = readByte s.frame j

/-- R183, R121: FSUB and FENC in BUILD raise SubstDomain exactly when some payload byte is 64 or more. FINFO holds the lowest such
index in bits [3:0] and the byte there in bits [15:8], zero elsewhere, and nothing else changes. -/
def Obligations.SubstDomainReportsTheLowestByte : Prop :=
  ∀ (i : Instr) (s : State), i = .fsub ∨ i = .fenc → s.fault = .none → s.phase = .build → s.len = 6 ∨ s.len = 9 →
    (∀ k, 2 ≤ k → k < s.len.toNat → 64 ≤ (readByte s.frame k).toNat →
        (∀ j, 2 ≤ j → j < k → (readByte s.frame j).toNat < 64) →
        ∃ info : Word, exec i s = .next { s with fault := .substDomain, finfo := info }
          ∧ info.toNat = (readByte s.frame k).toNat * 256 + k)
      ∧ ((∀ k, 2 ≤ k → k < s.len.toNat → (readByte s.frame k).toNat < 64) →
          ∃ t, exec i s = .next t ∧ t.fault = .none)

/-- R124: the sum is the exact sum of the codes, at most 1785 for length 9 and 1020 for length 6; the checksum is its bits [7:2], so
an accumulator of 8 bits would give the same; the domain comparison is the test of the top two bits. -/
def Obligations.SumNeverWraps : Prop :=
  (∀ (T : Table) (f g : Frame) (len : BitVec 4) (sum : BitVec 16), len = 6 ∨ len = 9 →
      substitute T f len = .coded g sum →
      sum.toNat = ((payload len).map fun i => (readByte g i).toNat).sum
        ∧ sum.toNat ≤ 1785 ∧ (len = 6 → sum.toNat ≤ 1020))
    ∧ (∀ sum : BitVec 16, checksum sum = sum.extractLsb' 2 6)
    ∧ (∀ a b : BitVec 16, a.setWidth 8 = b.setWidth 8 → checksum a = checksum b)
    ∧ ∀ b : Byte, 64 ≤ b.toNat ↔ b.extractLsb' 6 2 ≠ 0

/-- R216 (a), R105 (g): what stands in byte 1 before FSUB or FENC has no effect on the frame, the sum, the bit sequence or the run
lengths that follow. -/
def Obligations.PlacementsOnByteOneLeaveNoTrace : Prop :=
  ∀ (i : Instr) (s t : State) (b : Byte), i = .fsub ∨ i = .fenc → s.fault = .none →
    exec i s = .next t → t.fault = .none →
    exec i { s with frame := writeByte s.frame 1 b } = .next t

/-! ### Flatten with trim (20_memory.md R51, 41_frame_encode.md) -/

/-- R51: the 72-bit string of the frame, byte 0 first, least significant bit first; the magic byte gives seven zeros and a 1, which
becomes the first bit of the sequence. -/
def Obligations.FrameBitsAreLeastSignificantFirst : Prop :=
  (∀ f : Frame, (frameBits f).length = 72
      ∧ ∀ k, k < 72 → (frameBits f)[k]? = some ((readByte f (k / 8)).getLsbD (k % 8)))
    ∧ ∀ f : Frame, readByte f 0 = 0x80 →
        (frameBits f).take 8 = [false, false, false, false, false, false, false, true]
          ∧ ∃ rest, flatten f = true :: rest

/-- R125: the flatten is the slice of the frame's bits from the first 1 to the last 1, empty when there is none. -/
def Obligations.FlattenIsTheSliceFromFirstToLastOne : Prop :=
  ∀ f : Frame,
    ((∀ k, k < 72 → (frameBits f)[k]? = some false) → flatten f = [])
      ∧ ∀ first last, first ≤ last → last < 72 →
          (frameBits f)[first]? = some true → (frameBits f)[last]? = some true →
          (∀ k, k < first → (frameBits f)[k]? = some false) →
          (∀ k, last < k → k < 72 → (frameBits f)[k]? = some false) →
          flatten f = ((frameBits f).drop first).take (last - first + 1)

/-- R126: FFLAT executes in CODED. BITS and BITLEN take the flattened frame, zero beyond it, PHASE is FLAT, and every other register
stays. -/
def Obligations.FflatWritesTheBitSequence : Prop :=
  ∀ s : State, s.fault = .none → s.phase = .coded →
    ∃ (bits : Vector Bit 73) (bitlen : BitVec 7),
      exec .fflat s = .next { s with bits := bits, bitlen := bitlen, phase := .flat }
        ∧ bitlen.toNat = (flatten s.frame).length
        ∧ ∀ k : Fin 73, bits[k] = (flatten s.frame).getD k.val false

/-- R127: bounds on the length of the bit sequence, for any frame, for a frame with the bare magic, and for a coded frame with nothing
placed beyond its length under any admissible table. R144: the run count is then at most 41 or 65. -/
def Obligations.BitSequenceLengthBounds : Prop :=
  (∀ f : Frame, (flatten f).length ≤ 72 ∧ (readByte f 0 = 0x80 → (flatten f).length ≤ 65))
    ∧ ∀ (T : Table) (f g : Frame) (len : BitVec 4) (sum : BitVec 16), T.Admissible → len = 6 ∨ len = 9 →
        substitute T f len = .coded g sum → readByte f 0 = 0x80 →
        (∀ j, len.toNat ≤ j → readByte f j = 0) →
        (len = 6 → 34 ≤ (flatten g).length ∧ (flatten g).length ≤ 41)
          ∧ (len = 9 → 58 ≤ (flatten g).length ∧ (flatten g).length ≤ 65)
          ∧ ∀ out, rle (flatten g) = some out → out.length ≤ (flatten g).length

/-! ### Run lengths (42_run_length.md) -/

/-- R142: FRLE executes in FLAT on a non-empty sequence. RLE and RLELEN take its run lengths, zero beyond them, PHASE is DONE, and every
other register stays. On an empty one, which no run reaches, it raises EmptySequence (R184). -/
def Obligations.FrleWritesTheRunLengths : Prop :=
  ∀ s : State, s.fault = .none → s.phase = .flat →
    (s.bitlen ≠ 0 → ∃ (out : List Nat) (runs : Vector Byte 73) (rlelen : BitVec 7),
        exec .frle s = .next { s with rle := runs, rlelen := rlelen, phase := .done }
          ∧ rle s.bitSequence = some out
          ∧ rlelen.toNat = out.length
          ∧ ∀ j : Fin 73, runs[j].toNat = out.getD j.val 0)
      ∧ (s.bitlen = 0 → exec .frle s = .next { s with fault := .emptySequence, finfo := 0 })

/-- R144 (1), (2), (5): every run length is at least 1, they add up to the length of the sequence, and there are between one and that
many of them; R141: they are defined exactly for a non-empty sequence. -/
def Obligations.RunLengthsAddUpToTheSequence : Prop :=
  ∀ s : List Bit,
    (rle s = none ↔ s = [])
      ∧ ∀ out, rle s = some out →
          (∀ n ∈ out, 1 ≤ n) ∧ out.sum = s.length ∧ 1 ≤ out.length ∧ out.length ≤ s.length

/-- R144 (3): expanding the run lengths, alternating from the first bit, gives the sequence again. -/
def Obligations.ExpandingTheRunsGivesTheSequence : Prop :=
  ∀ (b : Bit) (rest : List Bit) (out : List Nat), rle (b :: rest) = some out → expandRuns b out = b :: rest

/-- R144 (4) and more: positive run lengths that expand to a sequence are its run lengths, so two sequences with the same first bit and
the same run lengths are equal. -/
def Obligations.RunLengthsDetermineTheSequence : Prop :=
  (∀ (b : Bit) (rest : List Bit) (out : List Nat), (∀ n ∈ out, 1 ≤ n) → expandRuns b out = b :: rest →
      rle (b :: rest) = some out)
    ∧ ∀ (b : Bit) (rest rest' : List Bit), rle (b :: rest) = rle (b :: rest') → rest = rest'

/-- R142 (d), R144: a sequence of at most 72 bits that starts and ends with 1 has an odd number of runs, at most 71, each at most
72. -/
def Obligations.MarksAtBothEndsGiveAnOddRunCount : Prop :=
  ∀ (s : List Bit) (out : List Nat), rle s = some out → s.head? = some true → s.getLast? = some true →
    s.length ≤ 72 → out.length % 2 = 1 ∧ out.length ≤ 71 ∧ ∀ n ∈ out, n ≤ 72

/-- R143: under the invariant the runs end at the first zero entry, which is RLE[RLELEN], inside the array; the runs up to it are those
RLELEN counts. -/
def Obligations.SentinelEndsTheRuns : Prop :=
  ∀ s : State, StateInv s →
    runsToSentinel s = runLengths s ∧ s.rlelen.toNat < 73 ∧ s.rle[s.rlelen.toNat]? = some 0

/-! ### The whole encode (42_run_length.md R145, R146, 43_command_variants.md R161) -/

/-- R145, R146: FENC executes in BUILD when every payload byte is below 64. It writes the coded frame, the sum, the bit sequence and the
run lengths, PHASE is DONE, and LEN, FAULT and FINFO stay. -/
def Obligations.FencEncodesTheFrame : Prop :=
  ∀ s : State, s.fault = .none → s.phase = .build → s.len = 6 ∨ s.len = 9 →
    (∀ i, 2 ≤ i → i < s.len.toNat → (readByte s.frame i).toNat < 64) →
    ∃ (g : Frame) (sum : BitVec 16) (out : List Nat) (bits : Vector Bit 73) (runs : Vector Byte 73)
        (bitlen rlelen : BitVec 7),
      exec .fenc s =
          .next { s with frame := g, sum := sum, bits := bits, bitlen := bitlen, rle := runs, rlelen := rlelen, phase := .done }
        ∧ substitute Config.subst s.frame s.len = .coded g sum
        ∧ rle (flatten g) = some out
        ∧ bitlen.toNat = (flatten g).length ∧ (∀ k : Fin 73, bits[k] = (flatten g).getD k.val false)
        ∧ rlelen.toNat = out.length ∧ ∀ j : Fin 73, runs[j].toNat = out.getD j.val 0

/-- R145, equivalence: from the same state in BUILD, FENC leaves exactly the state that FSUB, FFLAT, FRLE leave, also when the first of
them faults and when the block is halted. -/
def Obligations.FencEqualsTheThreeStages : Prop :=
  ∀ s : State, s.phase = .build → exec .fenc s = runOps [.fsub, .fflat, .frle] s

/-- R146: the encode is a pure function of the frame, the length and the table: two blocks that agree on FRAME and LEN in BUILD have the
same output after FENC, whatever an earlier encode left. -/
def Obligations.EncodeDependsOnlyOnFrameAndLength : Prop :=
  ∀ s t s' t' : State, s.phase = .build → t.phase = .build → s.fault = .none → t.fault = .none →
    s.frame = t.frame → s.len = t.len → exec .fenc s = .next s' → exec .fenc t = .next t' →
    s'.frame = t'.frame ∧ s'.fault = t'.fault ∧ s'.phase = t'.phase
      ∧ (s'.fault = .none → s'.sum = t'.sum ∧ s'.bits = t'.bits ∧ s'.bitlen = t'.bitlen
          ∧ s'.rle = t'.rle ∧ s'.rlelen = t'.rlelen)

/-- R104, R146, R218: whatever happened before a FINIT has no effect on what follows it: two blocks that are not halted, given the
same FINIT and then the same operations, agree on the current encode in every register that is its own by phase (R63). -/
def Obligations.EarlierEncodesDoNotLeak : Prop :=
  ∀ (len : BitVec 4) (ft : BitVec 3) (aid : Byte) (is : List Instr) (s t s' t' : State),
    len = 6 ∨ len = 9 → s.fault = .none → t.fault = .none →
    runOps (.finit len ft aid :: is) s = .next s' → runOps (.finit len ft aid :: is) t = .next t' →
    SameCurrentEncode s' t'

/-- R161, R167, R214: the encode program of a descriptor with an action id below 64 and of placements whose fields lie within bits 0 to 5
completes from any state that is not halted: no fault, fresh output, and the pulse train that the run lengths give is the flattened
frame. -/
def Obligations.EncodeProgramCompletes : Prop :=
  ∀ (d : CommandDescriptor) (ps : List Placement) (s : State),
    d.len = 6 ∨ d.len = 9 → d.aid.toNat < 64 →
    (∀ p ∈ ps, p.legal = true ∧ p.toff.toNat + p.w.toNat ≤ 6) → s.fault = .none →
    ∃ t, runOps (encodeProgram d ps) s = .next t ∧ t.safe = true ∧ outputFresh t = true
      ∧ pulses t = flatten t.frame

/-- R161: the two forms of the encode program, with FENC and with FSUB, FFLAT, FRLE, leave the same state, for any operands and from any
state. That a term with illegal operands, which no word spells, executes at all is the model's choice (log 4). -/
def Obligations.EncodeProgramFormsAgree : Prop :=
  ∀ (d : CommandDescriptor) (ps : List Placement) (s : State),
    runOps (encodeProgram d ps) s = runOps (encodeProgramStages d ps) s

/-- R162: the FINIT word of each of the seven descriptors, and the frame it leaves. -/
def Obligations.DescriptorTableWordsAndFrames : Prop :=
  ∀ v : CommandVariant,
    let d := v.descriptor
    (encode d.finit, initFrame d.len d.ft d.aid) =
      match v with
      | .singleColor => (0x16000000, #v[0x80, 0, 0, 0, 0, 0, 0, 0, 0])
      | .singleColorExtended => (0x19000000, #v[0x80, 0, 0, 0, 0, 0, 0, 0, 0])
      | .setColor => (0x19700000, #v[0x80, 0, 0x0E, 0, 0, 0, 0, 0, 0])
      | .setConfig => (0x16100000, #v[0x80, 0, 0x02, 0, 0, 0, 0, 0, 0])
      | .twoColor => (0x19200000, #v[0x80, 0, 0x04, 0, 0, 0, 0, 0, 0])
      | .setRepeatDelayTime => (0x19700007, #v[0x80, 0, 0x0E, 0, 0, 0, 0, 0x07, 0])
      | .setRepeatCount => (0x19700008, #v[0x80, 0, 0x0E, 0, 0, 0, 0, 0x08, 0])

/-! ### The whole machine (10_state.md R22, R26 to R31, R35; 20_memory.md R63) -/

/-- R22, R25 to R31: which operation writes which register. The last clause is about the words still to be issued, the model's own
field, and is its choice (log 1), as is an answer of exec for illegal operands (log 4). -/
def Obligations.RegistersAreWrittenOnlyByTheirOperations : Prop :=
  ∀ (i : Instr) (s t : State), exec i s = .next t →
    ((∀ len ft aid, i ≠ .finit len ft aid) → t.len = s.len)
      ∧ (i ≠ .fsub → i ≠ .fenc → t.sum = s.sum)
      ∧ (i ≠ .fflat → i ≠ .fenc → t.bits = s.bits ∧ t.bitlen = s.bitlen)
      ∧ (i ≠ .frle → i ≠ .fenc → t.rle = s.rle ∧ t.rlelen = s.rlelen)
      ∧ (i = .fflat ∨ i = .frle → t.frame = s.frame)
      ∧ (∀ tb toff w so val, i = .fplace tb toff w so val →
          ∀ j, j ≠ tb.toNat → readByte t.frame j = readByte s.frame j)
      ∧ (i = .fsub ∨ i = .fenc →
          readByte t.frame 0 = readByte s.frame 0
            ∧ ∀ j, 2 ≤ j → s.len.toNat ≤ j → readByte t.frame j = readByte s.frame j)
      ∧ (s.fault = .none → t.fault = .none → t.finfo = s.finfo)
      ∧ (t.phase ≠ s.phase → t.fault = .none)
      ∧ t.issued = s.issued

/-- R35: the invariant holds in the reset state. -/
def Obligations.InvariantHoldsAtReset : Prop :=
  StateInv State.reset ∧ BitsOfFrame State.reset ∧ ChecksumOfFrame State.reset

/-- R35: every step keeps the invariant, whatever word the host issues, legal or not. The step itself is the model's choice
(log 1). -/
def Obligations.StepKeepsTheInvariant : Prop :=
  ∀ s t : State, StateInv s → step s = .next t → StateInv t

/-- R63: every step keeps the bit sequence that of the current frame in FLAT and DONE. -/
def Obligations.StepKeepsTheBitsThoseOfTheFrame : Prop :=
  ∀ s t : State, BitsOfFrame s → step s = .next t → BitsOfFrame t

/-- R25, R57: every step keeps SUM and byte 1 the sum of the coded payload and the code of its checksum, from CODED on. -/
def Obligations.StepKeepsTheChecksumOfTheFrame : Prop :=
  ∀ s t : State, ChecksumOfFrame s → step s = .next t → ChecksumOfFrame t

/-- R35 item 2: byte 0 stays the magic constant outside IDLE as long as no FPLACE with `tb = 0` is issued. -/
def Obligations.MagicStaysUnlessPlacedUpon : Prop :=
  ∀ (s t : State) (W : Word) (rest : List Word), s.issued = W :: rest → step s = .next t →
    (∀ toff w so val, decode W ≠ .operation (.fplace 0 toff w so val)) →
    (s.phase ≠ .idle → readByte s.frame 0 = 0x80) → t.phase ≠ .idle → readByte t.frame 0 = 0x80

/-- R184: EmptySequence is unreachable: under the invariant no step raises it. -/
def Obligations.EmptySequenceIsNeverRaised : Prop :=
  ∀ s t : State, StateInv s → s.fault ≠ .emptySequence → step s = .next t → t.fault ≠ .emptySequence

/-- R63, R104, R146, R33: one issued word keeps two blocks alike. Two states that agree on the current encode, in every register that is
its own by phase (R63), still do after the same word, legal or reserved, in order or not, whatever else they hold. -/
def Obligations.EveryWordKeepsTheCurrentEncodeTheSame : Prop :=
  ∀ (W : Word) (s t s' t' : State), SameCurrentEncode s t →
    issueWord W s = .next s' → issueWord W t = .next t' → SameCurrentEncode s' t'
end

