-- ==== Sys2Proof/Laws/Encode.lean ====
section
/-! SUPPORT. The fields of an encoded operation, one lemma a field (30_encoding.md R72 to R75): what the decoder's accessors read
from the word the encoder writes. -/

namespace Sys2Proof

section Finit

variable (len : BitVec 4) (ft : BitVec 3) (aid : Byte)

@[simp] theorem opField_encode_finit : opField (encode (.finit len ft aid)) = 1 := by
  simp only [opField, encode]; ext k hk; interval_cases k <;> simp

@[simp] theorem lenField_encode_finit : lenField (encode (.finit len ft aid)) = len := by
  simp only [lenField, encode]; ext k hk; interval_cases k <;> simp

@[simp] theorem ftField_encode_finit : ftField (encode (.finit len ft aid)) = ft := by
  simp only [ftField, encode]; ext k hk; interval_cases k <;> simp

@[simp] theorem aidField_encode_finit : aidField (encode (.finit len ft aid)) = aid := by
  simp only [aidField, encode]; ext k hk; interval_cases k <;> simp

@[simp] theorem zeroBitsD_encode_finit : zeroBitsD (encode (.finit len ft aid)) = true := by
  simp only [zeroBitsD, encode, Bool.and_eq_true, beq_iff_eq]
  constructor <;> (ext k hk; interval_cases k <;> simp)

end Finit

section Fplace

variable (tb : BitVec 4) (toff : BitVec 3) (w : BitVec 4) (so : BitVec 3) (val : Byte)

@[simp] theorem opField_encode_fplace : opField (encode (.fplace tb toff w so val)) = 2 := by
  simp only [opField, encode]; ext k hk; interval_cases k <;> simp

@[simp] theorem tbField_encode_fplace : tbField (encode (.fplace tb toff w so val)) = tb := by
  simp only [tbField, encode]; ext k hk; interval_cases k <;> simp

@[simp] theorem toField_encode_fplace : toField (encode (.fplace tb toff w so val)) = toff := by
  simp only [toField, encode]; ext k hk; interval_cases k <;> simp

@[simp] theorem wField_encode_fplace : wField (encode (.fplace tb toff w so val)) = w := by
  simp only [wField, encode]; ext k hk; interval_cases k <;> simp

@[simp] theorem soField_encode_fplace : soField (encode (.fplace tb toff w so val)) = so := by
  simp only [soField, encode]; ext k hk; interval_cases k <;> simp

@[simp] theorem valField_encode_fplace : valField (encode (.fplace tb toff w so val)) = val := by
  simp only [valField, encode]; ext k hk; interval_cases k <;> simp

@[simp] theorem zeroBitsP_encode_fplace : zeroBitsP (encode (.fplace tb toff w so val)) = true := by
  simp only [zeroBitsP, encode, Bool.and_eq_true, beq_iff_eq]
  refine ⟨⟨?_, ?_⟩, ?_⟩ <;> (ext k hk; interval_cases k <;> simp)

end Fplace

/-- Bit `k` of a word is bit `k - lo` of the field `[lo + n - 1 : lo]` it lies in. -/
theorem getLsbD_of_field (W : Word) (lo n k : Nat) (h : lo ≤ k) (hk : k < lo + n) :
    W.getLsbD k = (W.extractLsb' lo n).getLsbD (k - lo) := by
  simp [show k - lo < n by omega, show lo + (k - lo) = k by omega]

/-- Everything the decoder can answer with an operation (30_encoding.md R82), row by row. -/
theorem decode_operation_cases {W : Word} {i : Instr} (h : decode W = .operation i) :
    (opField W = 1 ∧ zeroBitsD W = true ∧ (lenField W = 6 ∨ lenField W = 9)
        ∧ i = .finit (lenField W) (ftField W) (aidField W))
      ∨ (opField W = 2 ∧ zeroBitsP W = true ∧ (tbField W).toNat < 9 ∧ wField W ≠ 0 ∧ (wField W).toNat < 9
          ∧ i = .fplace (tbField W) (toField W) (wField W) (soField W) (valField W))
      ∨ (opField W = 3 ∧ zeroBitsN W = true ∧ i = .fsub)
      ∨ (opField W = 4 ∧ zeroBitsN W = true ∧ i = .fflat)
      ∨ (opField W = 5 ∧ zeroBitsN W = true ∧ i = .frle)
      ∨ (opField W = 6 ∧ zeroBitsN W = true ∧ i = .fenc) := by
  unfold decode decodeFinit decodeFplace decodeNoOperand at h
  split_ifs at h <;> simp_all

end Sys2Proof
end

