-- ==== Sys2Proof/Laws/State.lean ====
section
/-! SUPPORT. One lemma per field per update of State, so that no later proof unfolds a record update. -/

namespace Sys2Proof.Machine

section setFrame

variable (s : State) (f : Frame)

@[simp] theorem State.setFrame_frame : (s.setFrame f).frame = f := rfl
@[simp] theorem State.setFrame_len : (s.setFrame f).len = s.len := rfl
@[simp] theorem State.setFrame_sum : (s.setFrame f).sum = s.sum := rfl
@[simp] theorem State.setFrame_bits : (s.setFrame f).bits = s.bits := rfl
@[simp] theorem State.setFrame_bitlen : (s.setFrame f).bitlen = s.bitlen := rfl
@[simp] theorem State.setFrame_rle : (s.setFrame f).rle = s.rle := rfl
@[simp] theorem State.setFrame_rlelen : (s.setFrame f).rlelen = s.rlelen := rfl
@[simp] theorem State.setFrame_phase : (s.setFrame f).phase = s.phase := rfl
@[simp] theorem State.setFrame_fault : (s.setFrame f).fault = s.fault := rfl
@[simp] theorem State.setFrame_finfo : (s.setFrame f).finfo = s.finfo := rfl
@[simp] theorem State.setFrame_issued : (s.setFrame f).issued = s.issued := rfl

end setFrame

section setLen

variable (s : State) (n : BitVec 4)

@[simp] theorem State.setLen_frame : (s.setLen n).frame = s.frame := rfl
@[simp] theorem State.setLen_len : (s.setLen n).len = n := rfl
@[simp] theorem State.setLen_sum : (s.setLen n).sum = s.sum := rfl
@[simp] theorem State.setLen_bits : (s.setLen n).bits = s.bits := rfl
@[simp] theorem State.setLen_bitlen : (s.setLen n).bitlen = s.bitlen := rfl
@[simp] theorem State.setLen_rle : (s.setLen n).rle = s.rle := rfl
@[simp] theorem State.setLen_rlelen : (s.setLen n).rlelen = s.rlelen := rfl
@[simp] theorem State.setLen_phase : (s.setLen n).phase = s.phase := rfl
@[simp] theorem State.setLen_fault : (s.setLen n).fault = s.fault := rfl
@[simp] theorem State.setLen_finfo : (s.setLen n).finfo = s.finfo := rfl
@[simp] theorem State.setLen_issued : (s.setLen n).issued = s.issued := rfl

end setLen

section setSum

variable (s : State) (n : BitVec 16)

@[simp] theorem State.setSum_frame : (s.setSum n).frame = s.frame := rfl
@[simp] theorem State.setSum_len : (s.setSum n).len = s.len := rfl
@[simp] theorem State.setSum_sum : (s.setSum n).sum = n := rfl
@[simp] theorem State.setSum_bits : (s.setSum n).bits = s.bits := rfl
@[simp] theorem State.setSum_bitlen : (s.setSum n).bitlen = s.bitlen := rfl
@[simp] theorem State.setSum_rle : (s.setSum n).rle = s.rle := rfl
@[simp] theorem State.setSum_rlelen : (s.setSum n).rlelen = s.rlelen := rfl
@[simp] theorem State.setSum_phase : (s.setSum n).phase = s.phase := rfl
@[simp] theorem State.setSum_fault : (s.setSum n).fault = s.fault := rfl
@[simp] theorem State.setSum_finfo : (s.setSum n).finfo = s.finfo := rfl
@[simp] theorem State.setSum_issued : (s.setSum n).issued = s.issued := rfl

end setSum

section setPhase

variable (s : State) (p : Phase)

@[simp] theorem State.setPhase_frame : (s.setPhase p).frame = s.frame := rfl
@[simp] theorem State.setPhase_len : (s.setPhase p).len = s.len := rfl
@[simp] theorem State.setPhase_sum : (s.setPhase p).sum = s.sum := rfl
@[simp] theorem State.setPhase_bits : (s.setPhase p).bits = s.bits := rfl
@[simp] theorem State.setPhase_bitlen : (s.setPhase p).bitlen = s.bitlen := rfl
@[simp] theorem State.setPhase_rle : (s.setPhase p).rle = s.rle := rfl
@[simp] theorem State.setPhase_rlelen : (s.setPhase p).rlelen = s.rlelen := rfl
@[simp] theorem State.setPhase_phase : (s.setPhase p).phase = p := rfl
@[simp] theorem State.setPhase_fault : (s.setPhase p).fault = s.fault := rfl
@[simp] theorem State.setPhase_finfo : (s.setPhase p).finfo = s.finfo := rfl
@[simp] theorem State.setPhase_issued : (s.setPhase p).issued = s.issued := rfl

end setPhase

section setBits

variable (s : State) (v : Vector Bit 73)

@[simp] theorem State.setBits_frame : (s.setBits v).frame = s.frame := rfl
@[simp] theorem State.setBits_len : (s.setBits v).len = s.len := rfl
@[simp] theorem State.setBits_sum : (s.setBits v).sum = s.sum := rfl
@[simp] theorem State.setBits_bits : (s.setBits v).bits = v := rfl
@[simp] theorem State.setBits_bitlen : (s.setBits v).bitlen = s.bitlen := rfl
@[simp] theorem State.setBits_rle : (s.setBits v).rle = s.rle := rfl
@[simp] theorem State.setBits_rlelen : (s.setBits v).rlelen = s.rlelen := rfl
@[simp] theorem State.setBits_phase : (s.setBits v).phase = s.phase := rfl
@[simp] theorem State.setBits_fault : (s.setBits v).fault = s.fault := rfl
@[simp] theorem State.setBits_finfo : (s.setBits v).finfo = s.finfo := rfl
@[simp] theorem State.setBits_issued : (s.setBits v).issued = s.issued := rfl

end setBits

section setBitlen

variable (s : State) (n : BitVec 7)

@[simp] theorem State.setBitlen_frame : (s.setBitlen n).frame = s.frame := rfl
@[simp] theorem State.setBitlen_len : (s.setBitlen n).len = s.len := rfl
@[simp] theorem State.setBitlen_sum : (s.setBitlen n).sum = s.sum := rfl
@[simp] theorem State.setBitlen_bits : (s.setBitlen n).bits = s.bits := rfl
@[simp] theorem State.setBitlen_bitlen : (s.setBitlen n).bitlen = n := rfl
@[simp] theorem State.setBitlen_rle : (s.setBitlen n).rle = s.rle := rfl
@[simp] theorem State.setBitlen_rlelen : (s.setBitlen n).rlelen = s.rlelen := rfl
@[simp] theorem State.setBitlen_phase : (s.setBitlen n).phase = s.phase := rfl
@[simp] theorem State.setBitlen_fault : (s.setBitlen n).fault = s.fault := rfl
@[simp] theorem State.setBitlen_finfo : (s.setBitlen n).finfo = s.finfo := rfl
@[simp] theorem State.setBitlen_issued : (s.setBitlen n).issued = s.issued := rfl

end setBitlen

section setRle

variable (s : State) (v : Vector Byte 73)

@[simp] theorem State.setRle_frame : (s.setRle v).frame = s.frame := rfl
@[simp] theorem State.setRle_len : (s.setRle v).len = s.len := rfl
@[simp] theorem State.setRle_sum : (s.setRle v).sum = s.sum := rfl
@[simp] theorem State.setRle_bits : (s.setRle v).bits = s.bits := rfl
@[simp] theorem State.setRle_bitlen : (s.setRle v).bitlen = s.bitlen := rfl
@[simp] theorem State.setRle_rle : (s.setRle v).rle = v := rfl
@[simp] theorem State.setRle_rlelen : (s.setRle v).rlelen = s.rlelen := rfl
@[simp] theorem State.setRle_phase : (s.setRle v).phase = s.phase := rfl
@[simp] theorem State.setRle_fault : (s.setRle v).fault = s.fault := rfl
@[simp] theorem State.setRle_finfo : (s.setRle v).finfo = s.finfo := rfl
@[simp] theorem State.setRle_issued : (s.setRle v).issued = s.issued := rfl

end setRle

section setRlelen

variable (s : State) (n : BitVec 7)

@[simp] theorem State.setRlelen_frame : (s.setRlelen n).frame = s.frame := rfl
@[simp] theorem State.setRlelen_len : (s.setRlelen n).len = s.len := rfl
@[simp] theorem State.setRlelen_sum : (s.setRlelen n).sum = s.sum := rfl
@[simp] theorem State.setRlelen_bits : (s.setRlelen n).bits = s.bits := rfl
@[simp] theorem State.setRlelen_bitlen : (s.setRlelen n).bitlen = s.bitlen := rfl
@[simp] theorem State.setRlelen_rle : (s.setRlelen n).rle = s.rle := rfl
@[simp] theorem State.setRlelen_rlelen : (s.setRlelen n).rlelen = n := rfl
@[simp] theorem State.setRlelen_phase : (s.setRlelen n).phase = s.phase := rfl
@[simp] theorem State.setRlelen_fault : (s.setRlelen n).fault = s.fault := rfl
@[simp] theorem State.setRlelen_finfo : (s.setRlelen n).finfo = s.finfo := rfl
@[simp] theorem State.setRlelen_issued : (s.setRlelen n).issued = s.issued := rfl

end setRlelen

section trapEntry

variable (s : State) (c : Cause) (info : Word)

@[simp] theorem State.trapEntry_frame : (s.trapEntry c info).frame = s.frame := rfl
@[simp] theorem State.trapEntry_len : (s.trapEntry c info).len = s.len := rfl
@[simp] theorem State.trapEntry_sum : (s.trapEntry c info).sum = s.sum := rfl
@[simp] theorem State.trapEntry_bits : (s.trapEntry c info).bits = s.bits := rfl
@[simp] theorem State.trapEntry_bitlen : (s.trapEntry c info).bitlen = s.bitlen := rfl
@[simp] theorem State.trapEntry_rle : (s.trapEntry c info).rle = s.rle := rfl
@[simp] theorem State.trapEntry_rlelen : (s.trapEntry c info).rlelen = s.rlelen := rfl
@[simp] theorem State.trapEntry_phase : (s.trapEntry c info).phase = s.phase := rfl
@[simp] theorem State.trapEntry_fault : (s.trapEntry c info).fault = c := rfl
@[simp] theorem State.trapEntry_finfo : (s.trapEntry c info).finfo = info := rfl
@[simp] theorem State.trapEntry_issued : (s.trapEntry c info).issued = s.issued := rfl

end trapEntry

section setIssued

variable (s : State) (ws : List Word)

@[simp] theorem State.setIssued_frame : (s.setIssued ws).frame = s.frame := rfl
@[simp] theorem State.setIssued_len : (s.setIssued ws).len = s.len := rfl
@[simp] theorem State.setIssued_sum : (s.setIssued ws).sum = s.sum := rfl
@[simp] theorem State.setIssued_bits : (s.setIssued ws).bits = s.bits := rfl
@[simp] theorem State.setIssued_bitlen : (s.setIssued ws).bitlen = s.bitlen := rfl
@[simp] theorem State.setIssued_rle : (s.setIssued ws).rle = s.rle := rfl
@[simp] theorem State.setIssued_rlelen : (s.setIssued ws).rlelen = s.rlelen := rfl
@[simp] theorem State.setIssued_phase : (s.setIssued ws).phase = s.phase := rfl
@[simp] theorem State.setIssued_fault : (s.setIssued ws).fault = s.fault := rfl
@[simp] theorem State.setIssued_finfo : (s.setIssued ws).finfo = s.finfo := rfl
@[simp] theorem State.setIssued_issued : (s.setIssued ws).issued = ws := rfl

end setIssued

/-- Taking the next word of the host's list leaves every register. -/
theorem nextIssued_cons {s : State} {W : Word} {rest : List Word} (h : s.issued = W :: rest) :
    nextIssued s = some (W, s.setIssued rest) := by
  unfold nextIssued; rw [h]

theorem nextIssued_nil {s : State} (h : s.issued = []) : nextIssued s = none := by
  unfold nextIssued; rw [h]

/-- Everything taking a word can do: the host had a word, and only the list changes. -/
theorem nextIssued_some {s s' : State} {W : Word} (h : nextIssued s = some (W, s')) :
    ∃ rest, s.issued = W :: rest ∧ s' = s.setIssued rest := by
  unfold nextIssued at h
  split at h
  · cases h
  · rename_i W' rest hs
    cases h
    exact ⟨rest, hs, rfl⟩

end Sys2Proof.Machine
end

