-- ==== Sys2Proof/Laws/Ops.lean ====
section
/-! SUPPORT. One lemma for each shared operation that says once everything it can do: the checks of an issued word, access to one
frame byte, filling BITS and RLE. -/

namespace Sys2Proof.Machine

/-! ### Faults and the checks of an issued word -/

theorem raise_eq (c : Cause) (info : Word) (s : State) : raise c info s = .next (s.trapEntry c info) := rfl

@[simp] theorem halted_iff (s : State) : s.halted = true ↔ s.fault ≠ .none := by
  simp [State.halted]

theorem runOperation_halted {i : Instr} {effect : State → Result} {s : State} (h : s.fault ≠ .none) :
    runOperation i effect s = .next s := by
  simp [runOperation, h]

theorem runOperation_illegal {i : Instr} {effect : State → Result} {s : State} (h : s.fault = .none)
    (hw : i.wellFormed = false) : runOperation i effect s = .next (s.trapEntry .illegalOperation (encode i)) := by
  simp [runOperation, h, hw, raise_eq]

theorem runOperation_outOfOrder {i : Instr} {effect : State → Result} {s : State} (h : s.fault = .none)
    (hw : i.wellFormed = true) (ho : inOrder i s.phase = false) :
    runOperation i effect s = .next (s.trapEntry .sequence (encode i)) := by
  simp [runOperation, h, hw, ho, raise_eq]

theorem runOperation_inOrder {i : Instr} {effect : State → Result} {s : State} (h : s.fault = .none)
    (hw : i.wellFormed = true) (ho : inOrder i s.phase = true) : runOperation i effect s = effect s := by
  simp [runOperation, h, hw, ho]

/-- Everything the checks can do with an issued operation (60_exceptions.md R186). -/
theorem runOperation_cases (i : Instr) (effect : State → Result) (s : State) :
    (s.fault ≠ .none ∧ runOperation i effect s = .next s)
      ∨ (s.fault = .none ∧ i.wellFormed = false
          ∧ runOperation i effect s = .next (s.trapEntry .illegalOperation (encode i)))
      ∨ (s.fault = .none ∧ i.wellFormed = true ∧ inOrder i s.phase = false
          ∧ runOperation i effect s = .next (s.trapEntry .sequence (encode i)))
      ∨ (s.fault = .none ∧ i.wellFormed = true ∧ inOrder i s.phase = true
          ∧ runOperation i effect s = effect s) := by
  by_cases h : s.fault = .none
  · cases hw : i.wellFormed
    · exact .inr (.inl ⟨h, rfl, runOperation_illegal h hw⟩)
    · cases ho : inOrder i s.phase
      · exact .inr (.inr (.inl ⟨h, rfl, rfl, runOperation_outOfOrder h hw ho⟩))
      · exact .inr (.inr (.inr ⟨h, rfl, rfl, runOperation_inOrder h hw ho⟩))
  · exact .inl ⟨h, runOperation_halted h⟩

theorem reservedWord_halted {W : Word} {s : State} (h : s.fault ≠ .none) : reservedWord W s = .next s := by
  simp [reservedWord, h]

theorem reservedWord_raises {W : Word} {s : State} (h : s.fault = .none) :
    reservedWord W s = .next (s.trapEntry .illegalOperation W) := by
  simp [reservedWord, h, raise_eq]

/-! ### One frame byte -/

theorem readByte_of_lt {f : Frame} {i : Nat} (h : i < 9) : readByte f i = f[i] := by
  simp [readByte, h]

theorem readByte_of_ge {f : Frame} {i : Nat} (h : 9 ≤ i) : readByte f i = 0 := by
  simp [readByte, Nat.not_lt.mpr h]

/-- A read after a write to the same byte gives the value written. -/
theorem readByte_writeByte_self {f : Frame} {i : Nat} {b : Byte} (h : i < 9) : readByte (writeByte f i b) i = b := by
  simp [readByte, writeByte, h]

/-- A write leaves every other byte. -/
theorem readByte_writeByte_ne {f : Frame} {i j : Nat} {b : Byte} (h : j ≠ i) :
    readByte (writeByte f i b) j = readByte f j := by
  simp [readByte, writeByte, Ne.symm h]

/-- Reading any byte after a write. -/
theorem readByte_writeByte (f : Frame) (i j : Nat) (b : Byte) :
    readByte (writeByte f i b) j = if j = i ∧ i < 9 then b else readByte f j := by
  by_cases h : j = i
  · subst h
    by_cases h9 : j < 9
    · simp [h9, readByte_writeByte_self]
    · simp [h9, readByte_of_ge (Nat.le_of_not_lt h9)]
  · simp [h, readByte_writeByte_ne]

/-- Two frames that read the same in every byte are equal. -/
theorem frame_ext {f g : Frame} (h : ∀ i, i < 9 → readByte f i = readByte g i) : f = g := by
  apply Vector.ext
  intro i hi
  simpa [readByte_of_lt hi] using h i hi

/-- A write of the value already there changes nothing. -/
theorem writeByte_readByte_self (f : Frame) (i : Nat) : writeByte f i (readByte f i) = f := by
  apply frame_ext
  intro j _
  rw [readByte_writeByte]
  split
  · rename_i h; rw [h.1]
  · rfl

/-- The second of two writes to one byte wins. -/
theorem writeByte_writeByte_self (f : Frame) (i : Nat) (a b : Byte) :
    writeByte (writeByte f i a) i b = writeByte f i b := by
  apply frame_ext
  intro j _
  simp only [readByte_writeByte]
  split <;> simp_all

/-- Writes to different bytes commute. -/
theorem writeByte_comm (f : Frame) {i j : Nat} (a b : Byte) (h : i ≠ j) :
    writeByte (writeByte f i a) j b = writeByte (writeByte f j b) i a := by
  apply frame_ext
  intro k _
  simp only [readByte_writeByte]
  split <;> split <;> simp_all

/-- One placement changes one byte (40_frame_build.md R105). -/
theorem readByte_placeField (f : Frame) (tb : BitVec 4) (toff : BitVec 3) (w : BitVec 4) (so : BitVec 3) (val : Byte)
    (j : Nat) : readByte (placeField f tb toff w so val) j =
      if j = tb.toNat ∧ tb.toNat < 9 then place (readByte f tb.toNat) toff (extract val so w) else readByte f j := by
  rw [placeField, readByte_writeByte]

/-! ### BITS and RLE -/

theorem padTo_getElem? {α : Type} (n : Nat) (d : α) (l : List α) (k : Nat) (h : k < n) :
    (padTo n d l)[k]? = some (l.getD k d) := by
  induction n generalizing l k with
  | zero => omega
  | succ n ih =>
    cases l <;> cases k <;> simp [padTo]
    · rename_i k; simpa using ih [] k (by omega)
    · rename_i a l k; simpa using ih l k (by omega)

@[simp] theorem fillBits_getElem (seq : List Bit) (k : Nat) (h : k < 73) : (fillBits seq)[k] = seq.getD k false := by
  unfold fillBits
  have := padTo_getElem? 73 false seq k h
  rw [List.getElem?_eq_some_iff] at this
  exact this.2

@[simp] theorem fillRuns_getElem (out : List Nat) (j : Nat) (h : j < 73) :
    (fillRuns out)[j] = BitVec.ofNat 8 (out.getD j 0) := by
  unfold fillRuns
  have := padTo_getElem? 73 0 (out.map (BitVec.ofNat 8)) j h
  rw [List.getElem?_eq_some_iff] at this
  refine this.2.trans ?_
  simp only [List.getD_eq_getElem?_getD, List.getElem?_map]
  cases out[j]? <;> rfl

section writeBitSequence

variable (s : State) (seq : List Bit)

@[simp] theorem State.writeBitSequence_frame : (s.writeBitSequence seq).frame = s.frame := rfl
@[simp] theorem State.writeBitSequence_len : (s.writeBitSequence seq).len = s.len := rfl
@[simp] theorem State.writeBitSequence_sum : (s.writeBitSequence seq).sum = s.sum := rfl
@[simp] theorem State.writeBitSequence_bits : (s.writeBitSequence seq).bits = fillBits seq := rfl
@[simp] theorem State.writeBitSequence_bitlen : (s.writeBitSequence seq).bitlen = BitVec.ofNat 7 seq.length := rfl
@[simp] theorem State.writeBitSequence_rle : (s.writeBitSequence seq).rle = s.rle := rfl
@[simp] theorem State.writeBitSequence_rlelen : (s.writeBitSequence seq).rlelen = s.rlelen := rfl
@[simp] theorem State.writeBitSequence_phase : (s.writeBitSequence seq).phase = s.phase := rfl
@[simp] theorem State.writeBitSequence_fault : (s.writeBitSequence seq).fault = s.fault := rfl
@[simp] theorem State.writeBitSequence_finfo : (s.writeBitSequence seq).finfo = s.finfo := rfl
@[simp] theorem State.writeBitSequence_issued : (s.writeBitSequence seq).issued = s.issued := rfl

end writeBitSequence

section writeRunLengths

variable (s : State) (out : List Nat)

@[simp] theorem State.writeRunLengths_frame : (s.writeRunLengths out).frame = s.frame := rfl
@[simp] theorem State.writeRunLengths_len : (s.writeRunLengths out).len = s.len := rfl
@[simp] theorem State.writeRunLengths_sum : (s.writeRunLengths out).sum = s.sum := rfl
@[simp] theorem State.writeRunLengths_bits : (s.writeRunLengths out).bits = s.bits := rfl
@[simp] theorem State.writeRunLengths_bitlen : (s.writeRunLengths out).bitlen = s.bitlen := rfl
@[simp] theorem State.writeRunLengths_rle : (s.writeRunLengths out).rle = fillRuns out := rfl
@[simp] theorem State.writeRunLengths_rlelen : (s.writeRunLengths out).rlelen = BitVec.ofNat 7 out.length := rfl
@[simp] theorem State.writeRunLengths_phase : (s.writeRunLengths out).phase = s.phase := rfl
@[simp] theorem State.writeRunLengths_fault : (s.writeRunLengths out).fault = s.fault := rfl
@[simp] theorem State.writeRunLengths_finfo : (s.writeRunLengths out).finfo = s.finfo := rfl
@[simp] theorem State.writeRunLengths_issued : (s.writeRunLengths out).issued = s.issued := rfl

end writeRunLengths

/-- The sequence read back from BITS is the one written, up to the capacity (10_state.md R28). -/
theorem bitSequence_of_filled {s : State} {seq : List Bit} (h : seq.length ≤ 73) (hb : s.bits = fillBits seq)
    (hn : s.bitlen = BitVec.ofNat 7 seq.length) : s.bitSequence = seq := by
  have hl : s.bitlen.toNat = seq.length := by
    rw [hn, BitVec.toNat_ofNat]; omega
  apply List.ext_getElem
  · simp only [State.bitSequence, hl, List.length_take, Vector.length_toList]
    omega
  · intro k _ hk
    have : k < 73 := by omega
    simp [State.bitSequence, hb, hk]

theorem bitSequence_congr {s t : State} (hb : s.bits = t.bits) (hl : s.bitlen = t.bitlen) :
    s.bitSequence = t.bitSequence := by
  simp [State.bitSequence, hb, hl]

end Sys2Proof.Machine
end

