-- ==== Sys2Proof/Laws/FrameEncode.lean ====
section
/-! SUPPORT. What substitution and the flatten do (41_frame_encode.md R121, R125), said once. -/

namespace Sys2Proof.Machine

/-! ### Substitution -/

theorem mem_payload {len : BitVec 4} {i : Nat} : i ∈ payload len ↔ i < 9 ∧ 2 ≤ i ∧ i < len.toNat := by
  simp [payload]

theorem payload_nodup (len : BitVec 4) : (payload len).Nodup := List.nodup_range.filter _

theorem payload_length_le (len : BitVec 4) : (payload len).length ≤ 7 := by
  have h : (payload len).Subperm ((List.range 9).filter fun i => decide (2 ≤ i)) := by
    apply List.Subperm.trans (l₂ := ((List.range 9).filter fun i => decide (2 ≤ i)).filter fun i => decide (i < len.toNat))
    · rw [List.filter_filter]
      exact (List.Perm.of_eq (by simp [payload, Bool.and_comm])).subperm
    · exact List.filter_sublist.subperm
  exact h.length_le.trans (by decide)

/-- No payload byte is outside the domain exactly when all are below 64. -/
theorem firstOutside_eq_none {f : Frame} {len : BitVec 4} :
    firstOutside f len = none ↔ ∀ i ∈ payload len, (readByte f i).toNat < 64 := by
  simp [firstOutside, substEntries]

/-- The index found is a payload index whose byte is 64 or more, and every payload byte before it is below 64. -/
theorem firstOutside_eq_some {f : Frame} {len : BitVec 4} {k : Nat} :
    firstOutside f len = some k ↔
      k ∈ payload len ∧ 64 ≤ (readByte f k).toNat ∧ ∀ j ∈ payload len, j < k → (readByte f j).toNat < 64 := by
  have hs : (payload len).Pairwise (· < ·) := (List.pairwise_lt_range (n := 9)).filter _
  constructor
  · intro h
    obtain ⟨hp, as, bs, heq, has⟩ := List.find?_eq_some_iff_append.mp h
    rw [heq] at hs
    have hk : k ∈ payload len := by rw [heq]; simp
    refine ⟨hk, by simpa [substEntries] using hp, fun j hj hjk => ?_⟩
    rw [heq] at hj
    rcases List.mem_append.mp hj with h' | h'
    · simpa [substEntries] using has j h'
    · rcases List.mem_cons.mp h' with h'' | h''
      · omega
      · have := (List.pairwise_append.mp hs).2.1
        have := (List.pairwise_cons.mp this).1 j h''
        omega
  · rintro ⟨hk, h64, hlow⟩
    cases h : firstOutside f len with
    | none => exact absurd (firstOutside_eq_none.mp h k hk) (by omega)
    | some m =>
      obtain ⟨hp, as, bs, heq, has⟩ := List.find?_eq_some_iff_append.mp h
      have hm : m ∈ payload len := by rw [heq]; simp
      have hm64 : 64 ≤ (readByte f m).toNat := by simpa [substEntries] using hp
      have h1 : ¬ m < k := fun hlt => by have := hlow m hm hlt; omega
      have h2 : ¬ k < m := fun hlt => by
        rw [heq] at hk hs
        rcases List.mem_append.mp hk with h' | h'
        · have := has k h'
          simp [substEntries] at this
          omega
        · rcases List.mem_cons.mp h' with h'' | h''
          · omega
          · have := (List.pairwise_cons.mp (List.pairwise_append.mp hs).2.1).1 k h''
            omega
      rw [show m = k by omega]

/-- Step 1 over distinct frame bytes: each listed byte becomes its code, the others stay, and the sum grows by the codes. -/
theorem substituteBytes_spec (T : Table) (l : List Nat) (f : Frame) (sum : BitVec 16) (hd : l.Nodup)
    (h9 : ∀ i ∈ l, i < 9) :
    (∀ j, readByte (substituteBytes T l f sum).1 j =
        if j ∈ l then readTable T (readByte f j) else readByte f j)
      ∧ ((substituteBytes T l f sum).2.toNat =
          (sum.toNat + (l.map fun i => (readTable T (readByte f i)).toNat).sum) % 65536) := by
  induction l generalizing f sum with
  | nil => simp [substituteBytes, Nat.mod_eq_of_lt sum.isLt]
  | cons i rest ih =>
    obtain ⟨hi, hd⟩ := List.nodup_cons.mp hd
    have hi9 : i < 9 := h9 i (by simp)
    obtain ⟨h1, h2⟩ := ih (writeByte f i (readTable T (readByte f i)))
      (sum + (readTable T (readByte f i)).setWidth 16) hd fun j hj => h9 j (by simp [hj])
    constructor
    · intro j
      rw [substituteBytes, h1 j, readByte_writeByte]
      by_cases hji : j = i
      · subst hji; simp [hi, hi9]
      · simp [hji]
    · rw [substituteBytes, h2]
      have hmap : (rest.map fun k => (readTable T (readByte (writeByte f i (readTable T (readByte f i))) k)).toNat)
          = rest.map fun k => (readTable T (readByte f k)).toNat := by
        apply List.map_congr_left
        intro k hk
        rw [readByte_writeByte_ne]
        rintro rfl
        exact hi hk
      rw [hmap]
      simp only [BitVec.toNat_add, BitVec.toNat_setWidth, List.map_cons, List.sum_cons]
      have := (readTable T (readByte f i)).isLt
      omega

/-- The sum of at most seven bytes never wraps in 16 bits (41_frame_encode.md R124). -/
theorem byte_sum_le {α : Type} (l : List α) (g : α → Byte) : (l.map fun i => (g i).toNat).sum ≤ l.length * 255 := by
  induction l with
  | nil => simp
  | cons a l ih =>
    have := (g a).isLt
    simp only [List.map_cons, List.sum_cons, List.length_cons]
    omega

/-- Everything `substitute` can answer (41_frame_encode.md R121). -/
theorem substitute_cases (T : Table) (f : Frame) (len : BitVec 4) :
    (∃ k, firstOutside f len = some k ∧ substitute T f len = .outside k (readByte f k))
      ∨ (firstOutside f len = none ∧ ∃ g sum, substitute T f len = .coded g sum
          ∧ sum.toNat = ((payload len).map fun i => (readTable T (readByte f i)).toNat).sum
          ∧ ∀ j, readByte g j =
              if j = 1 then T (checksum sum)
              else if j ∈ payload len then readTable T (readByte f j)
              else readByte f j) := by
  unfold substitute
  cases h : firstOutside f len with
  | some k => exact .inl ⟨k, rfl, rfl⟩
  | none =>
    obtain ⟨h1, h2⟩ := substituteBytes_spec T (payload len) f 0 (payload_nodup len) fun i hi => (mem_payload.mp hi).1
    refine .inr ⟨rfl, _, _, rfl, ?_, ?_⟩
    · rw [h2]
      have hb := byte_sum_le (payload len) fun i => readTable T (readByte f i)
      have hl := payload_length_le len
      rw [show (0 : BitVec 16).toNat = 0 from rfl, Nat.zero_add]
      exact Nat.mod_eq_of_lt (by omega)
    · intro j
      rw [readByte_writeByte, h1 j]
      by_cases hj : j = 1 <;> simp [hj]

/-! ### Flatten -/

theorem byteBits_length (b : Byte) : (byteBits b).length = 8 := by simp [byteBits]

theorem frameBits_length (f : Frame) : (frameBits f).length = 72 := by
  simp [frameBits, List.length_flatMap, byteBits_length]

theorem scanBits_true (l : List Bit) : scanBits true l = l := by
  induction l with
  | nil => rfl
  | cons b l ih => simp [scanBits, ih]

/-- The scan discards the zeros before the first 1. -/
theorem scanBits_false (l : List Bit) : scanBits false l = l.dropWhile (! ·) := by
  induction l with
  | nil => rfl
  | cons b l ih => cases b <;> simp [scanBits, scanBits_true, ih]

/-- What remains is empty or ends with a 1. -/
theorem dropTrailingZeros_getLast (l : List Bit) :
    dropTrailingZeros l = [] ∨ (dropTrailingZeros l).getLast? = some true := by
  induction l with
  | nil => exact .inl rfl
  | cons b l ih =>
    simp only [dropTrailingZeros]
    split
    · cases b <;> simp
    · rename_i hne
      rcases ih with h | h
      · exact absurd h (by simpa using hne)
      · right
        rw [List.getLast?_cons, h]
        rfl

/-- The trim removes nothing but zeros at the end. -/
theorem dropTrailingZeros_append (l : List Bit) :
    ∃ n, l = dropTrailingZeros l ++ List.replicate n false := by
  induction l with
  | nil => exact ⟨0, rfl⟩
  | cons b l ih =>
    obtain ⟨n, hn⟩ := ih
    simp only [dropTrailingZeros]
    split
    · rename_i h
      rw [h] at hn
      cases b
      · exact ⟨n + 1, by rw [hn]; simp [List.replicate_succ]⟩
      · exact ⟨n, by rw [hn]; simp⟩
    · exact ⟨n, by rw [List.cons_append, ← hn]⟩

/-- The bits of the frame are leading zeros, the flattened sequence, trailing zeros. -/
theorem frameBits_eq_flatten (f : Frame) :
    ∃ m n, frameBits f = List.replicate m false ++ flatten f ++ List.replicate n false := by
  obtain ⟨n, hn⟩ := dropTrailingZeros_append (scanBits false (frameBits f))
  have ht : (frameBits f).takeWhile (! ·) = List.replicate ((frameBits f).takeWhile (! ·)).length false := by
    apply List.eq_replicate_of_mem
    intro b hb
    simpa using List.mem_takeWhile_imp hb
  refine ⟨((frameBits f).takeWhile (! ·)).length, n, ?_⟩
  rw [List.append_assoc, flatten, ← hn, scanBits_false, ← ht, List.takeWhile_append_dropWhile]

theorem flatten_length_le (f : Frame) : (flatten f).length ≤ 72 := by
  obtain ⟨m, n, h⟩ := frameBits_eq_flatten f
  have := congrArg List.length h
  simp [frameBits_length] at this
  omega

/-- The flattened sequence is empty or starts and ends with a 1 (41_frame_encode.md R125). -/
theorem flatten_ends (f : Frame) :
    flatten f = [] ∨ ((flatten f).head? = some true ∧ (flatten f).getLast? = some true) := by
  unfold flatten
  rcases dropTrailingZeros_getLast (scanBits false (frameBits f)) with h | h
  · exact .inl h
  · refine .inr ⟨?_, h⟩
    have hd : scanBits false (frameBits f) ≠ [] := fun h0 => by rw [h0] at h; simp [dropTrailingZeros] at h
    rw [scanBits_false] at hd
    have hh : ((frameBits f).dropWhile (! ·)).head? = some true := by
      cases hc : (frameBits f).dropWhile (! ·) with
      | nil => exact absurd hc hd
      | cons b l =>
        have hb := List.head?_dropWhile_not (fun b => ! b) (frameBits f)
        rw [hc] at hb
        simpa using hb
    obtain ⟨n, hn⟩ := dropTrailingZeros_append (scanBits false (frameBits f))
    rw [← scanBits_false, hn] at hh
    cases hc : dropTrailingZeros (scanBits false (frameBits f)) with
    | nil => rw [hc] at h; simp at h
    | cons b l => rw [hc] at hh; simpa using hh

end Sys2Proof.Machine
end

