-- ==== Sys2Proof/Laws/RunLength.lean ====
section
/-! SUPPORT. What the run-length walk gives (42_run_length.md R141, R144), by induction on the sequence. -/

namespace Sys2Proof.Machine

theorem rleWalk_sum (cur : Bit) (cnt : Nat) (l : List Bit) : (rleWalk cur cnt l).sum = cnt + l.length := by
  induction l generalizing cur cnt with
  | nil => simp [rleWalk]
  | cons b l ih =>
    simp only [rleWalk]
    split <;> simp [ih] <;> omega

theorem rleWalk_pos (cur : Bit) (cnt : Nat) (l : List Bit) (h : 1 ≤ cnt) : ∀ n ∈ rleWalk cur cnt l, 1 ≤ n := by
  induction l generalizing cur cnt with
  | nil => simpa [rleWalk] using h
  | cons b l ih =>
    simp only [rleWalk]
    split
    · exact ih _ _ (by omega)
    · simpa [h] using ih _ _ (Nat.le_refl 1)

theorem rleWalk_length (cur : Bit) (cnt : Nat) (l : List Bit) :
    1 ≤ (rleWalk cur cnt l).length ∧ (rleWalk cur cnt l).length ≤ l.length + 1 := by
  induction l generalizing cur cnt with
  | nil => simp [rleWalk]
  | cons b l ih =>
    simp only [rleWalk]
    split
    · have := ih cur (cnt + 1); simp; omega
    · have := ih (!cur) 1; simp; omega

/-- Expanding what the walk gives, the run under way included, gives the sequence again. -/
theorem expandRuns_rleWalk (cur : Bit) (cnt : Nat) (l : List Bit) :
    expandRuns cur (rleWalk cur cnt l) = List.replicate cnt cur ++ l := by
  induction l generalizing cur cnt with
  | nil => simp [rleWalk, expandRuns]
  | cons b l ih =>
    simp only [rleWalk]
    split
    · rename_i h
      rw [ih, h, List.replicate_succ', List.append_assoc, List.singleton_append]
    · rename_i h
      have hb : b = !cur := by cases b <;> cases cur <;> simp_all
      rw [expandRuns, ih, hb]
      simp

/-- The number of runs is odd exactly when the last run has the first run's bit value. -/
theorem rleWalk_parity (cur : Bit) (cnt : Nat) (l : List Bit) :
    (rleWalk cur cnt l).length % 2 = if l.getLast?.getD cur = cur then 1 else 0 := by
  induction l generalizing cur cnt with
  | nil => simp [rleWalk]
  | cons b l ih =>
    simp only [rleWalk]
    split
    · rename_i h
      subst h
      rw [ih, List.getLast?_cons]
      simp
    · rename_i h
      have hb : b = !cur := by cases b <;> cases cur <;> simp_all
      have := ih (!cur) 1
      rw [List.length_cons, List.getLast?_cons, hb, Option.getD_some]
      by_cases hl : l.getLast?.getD (!cur) = !cur
      · rw [if_pos hl] at this
        rw [hl, if_neg (by cases cur <;> decide)]
        omega
      · rw [if_neg hl] at this
        have hl' : l.getLast?.getD (!cur) = cur := by
          cases h1 : l.getLast?.getD (!cur) <;> cases cur <;> simp_all
        rw [hl', if_pos rfl]
        omega

/-- Everything `rle` can answer (42_run_length.md R141). -/
theorem rle_cases (s : List Bit) :
    (s = [] ∧ rle s = none) ∨ ∃ b rest, s = b :: rest ∧ rle s = some (rleWalk b 1 rest) := by
  cases s with
  | nil => exact .inl ⟨rfl, rfl⟩
  | cons b rest => exact .inr ⟨b, rest, rfl, rfl⟩

end Sys2Proof.Machine
end

