-- ==== Sys2Proof/Laws/Exec.lean ====
section
/-! SUPPORT. What one operation and one step can do, said once: every meaning is the common checks around its own effect, and each
effect ends in one of a few ways. -/

namespace Sys2Proof.Machine

/-- The effect an operation has when it is in order. -/
def effectOf (i : Instr) (s : State) : Result :=
  match i with
  | .finit len ft aid => finitEffect len ft aid s
  | .fplace tb toff w so val => fplaceEffect tb toff w so val s
  | .fsub => fsubEffect Config.subst s
  | .fflat => fflatEffect s
  | .frle => frleEffect s
  | .fenc => fencEffect Config.subst s

/-- Every meaning is the checks of 60_exceptions.md R186 around its effect. -/
theorem exec_eq_runOperation (i : Instr) (s : State) : exec i s = runOperation i (effectOf i) s := by
  cases i <;> rfl

theorem exec_halted {i : Instr} {s : State} (h : s.fault ≠ .none) : exec i s = .next s := by
  rw [exec_eq_runOperation, runOperation_halted h]

/-- The phases an operation is in order in are those the table of 60_exceptions.md R182 gives a next phase for. -/
theorem inOrder_iff_phaseAfter (i : Instr) (p : Phase) : inOrder i p = (phaseAfter p i).isSome := by
  cases i <;> cases p <;> rfl

/-- FSUB in order: SubstDomain at the lowest outside byte, or the coded frame and its sum. -/
theorem fsubEffect_cases (T : Table) (s : State) :
    (∃ k, firstOutside s.frame s.len = some k
        ∧ fsubEffect T s = .next (s.trapEntry .substDomain (substDomainInfo k (readByte s.frame k))))
      ∨ (firstOutside s.frame s.len = none ∧ ∃ g sum, substitute T s.frame s.len = .coded g sum
          ∧ fsubEffect T s = .next (((s.setFrame g).setSum sum).setPhase .coded)) := by
  rcases substitute_cases T s.frame s.len with ⟨k, hk, h⟩ | ⟨hn, g, sum, h, _⟩
  · exact .inl ⟨k, hk, by rw [fsubEffect, h]; rfl⟩
  · exact .inr ⟨hn, g, sum, h, by rw [fsubEffect, h]⟩

/-- FRLE in order: EmptySequence on an empty sequence, or its run lengths. -/
theorem frleEffect_cases (s : State) :
    (s.bitSequence = [] ∧ frleEffect s = .next (s.trapEntry .emptySequence 0))
      ∨ ∃ b rest, s.bitSequence = b :: rest
          ∧ frleEffect s = .next ((s.writeRunLengths (rleWalk b 1 rest)).setPhase .done) := by
  rcases rle_cases s.bitSequence with ⟨h, hr⟩ | ⟨b, rest, h, hr⟩
  · exact .inl ⟨h, by rw [frleEffect, hr]; rfl⟩
  · exact .inr ⟨b, rest, h, by rw [frleEffect, hr]⟩

/-- A frame with a byte other than zero flattens to a non-empty sequence. -/
theorem flatten_ne_nil_of_byte {f : Frame} {j : Nat} (h : readByte f j ≠ 0) : flatten f ≠ [] := by
  intro hnil
  obtain ⟨m, n, hmn⟩ := frameBits_eq_flatten f
  rw [hnil] at hmn
  have hall : ∀ b ∈ frameBits f, b = false := by
    intro b hb
    rw [hmn, List.append_nil, List.mem_append] at hb
    rcases hb with hb | hb <;> exact (List.mem_replicate.mp hb).2
  have hj : j < 9 := Nat.lt_of_not_le fun h9 => h (readByte_of_ge h9)
  apply h
  apply BitVec.eq_of_getLsbD_eq
  intro k hk
  refine (hall _ ?_).trans BitVec.getLsbD_zero.symm
  simp only [frameBits, List.mem_flatMap, byteBits, List.mem_map, List.mem_range]
  exact ⟨readByte f j, by rw [readByte_of_lt hj]; simp, k, hk, rfl⟩

/-- FENC in order, under a table with no zero code: SubstDomain as FSUB, or the whole encode; the sequence is never empty
(42_run_length.md R145). -/
theorem fencEffect_cases {T : Table} (hT : ∀ i, T i ≠ 0) (s : State) :
    (∃ k, firstOutside s.frame s.len = some k
        ∧ fencEffect T s = .next (s.trapEntry .substDomain (substDomainInfo k (readByte s.frame k))))
      ∨ (firstOutside s.frame s.len = none ∧ ∃ g sum b rest, substitute T s.frame s.len = .coded g sum
          ∧ flatten g = b :: rest
          ∧ fencEffect T s = .next (((((s.setFrame g).setSum sum).writeBitSequence (flatten g)).writeRunLengths
              (rleWalk b 1 rest)).setPhase .done)) := by
  rcases substitute_cases T s.frame s.len with ⟨k, hk, h⟩ | ⟨hn, g, sum, h, _, hg⟩
  · exact .inl ⟨k, hk, by rw [fencEffect, encodeFrame, h]; rfl⟩
  · have h1 : readByte g 1 ≠ 0 := by rw [hg 1]; simpa using hT _
    rcases rle_cases (flatten g) with ⟨h0, _⟩ | ⟨b, rest, hb, hr⟩
    · exact absurd h0 (flatten_ne_nil_of_byte h1)
    · exact .inr ⟨hn, g, sum, b, rest, h, hb, by simp only [fencEffect, encodeFrame, h, hr]⟩

/-- No table made from a permutation has a zero code (20_memory.md R56 (c)). -/
theorem ofPerm_ne_zero (p : Equiv.Perm (Fin 254)) (i : BitVec 6) : Table.ofPerm p i ≠ 0 := by
  intro h
  have h1 := congrArg BitVec.toNat h
  simp only [Table.ofPerm, BitVec.toNat_ofNat, BitVec.ofNat_eq_ofNat] at h1
  have := (p ⟨i.toNat, Nat.lt_trans i.isLt (by decide)⟩).isLt
  omega

/-- No code of the block's table is zero (20_memory.md R56 (c)). -/
theorem subst_ne_zero (i : BitVec 6) : Config.subst i ≠ 0 := ofPerm_ne_zero _ i

/-- What an operation that completes in its own phase leaves, operation by operation. -/
def Completes (i : Instr) (s t : State) : Prop :=
  match i with
  | .finit len ft aid => t = ((s.setFrame (initFrame len ft aid)).setLen len).setPhase .build
  | .fplace tb toff w so val => s.phase = .build ∧ t = s.setFrame (placeField s.frame tb toff w so val)
  | .fsub => s.phase = .build ∧ ∃ g sum, substitute Config.subst s.frame s.len = .coded g sum
      ∧ t = ((s.setFrame g).setSum sum).setPhase .coded
  | .fflat => s.phase = .coded ∧ t = (s.writeBitSequence (flatten s.frame)).setPhase .flat
  | .frle => s.phase = .flat ∧ ∃ b rest, s.bitSequence = b :: rest
      ∧ t = (s.writeRunLengths (rleWalk b 1 rest)).setPhase .done
  | .fenc => s.phase = .build ∧ ∃ g sum b rest, substitute Config.subst s.frame s.len = .coded g sum
      ∧ flatten g = b :: rest
      ∧ t = ((((s.setFrame g).setSum sum).writeBitSequence (flatten g)).writeRunLengths (rleWalk b 1 rest)).setPhase .done

/-- An operation in order either completes or raises SubstDomain (FSUB, FENC) or, on an empty sequence, EmptySequence (FRLE). -/
theorem effectOf_cases {i : Instr} {s t : State} (ho : inOrder i s.phase = true) (h : effectOf i s = .next t) :
    Completes i s t
      ∨ ((i = .fsub ∨ i = .fenc) ∧ ∃ info, t = s.trapEntry .substDomain info)
      ∨ (i = .frle ∧ s.phase = .flat ∧ s.bitSequence = [] ∧ t = s.trapEntry .emptySequence 0) := by
  rw [inOrder_iff_phaseAfter] at ho
  cases i with
  | finit => exact .inl (Host.Outcome.next.inj h).symm
  | fplace => exact .inl ⟨by simpa [phaseAfter] using ho, (Host.Outcome.next.inj h).symm⟩
  | fflat => exact .inl ⟨by simpa [phaseAfter] using ho, (Host.Outcome.next.inj h).symm⟩
  | fsub =>
    rcases fsubEffect_cases Config.subst s with ⟨k, _, h'⟩ | ⟨_, g, sum, hs, h'⟩ <;> rw [effectOf, h'] at h
    · exact .inr (.inl ⟨.inl rfl, _, (Host.Outcome.next.inj h).symm⟩)
    · exact .inl ⟨by simpa [phaseAfter] using ho, g, sum, hs, (Host.Outcome.next.inj h).symm⟩
  | frle =>
    have hp : s.phase = .flat := by simpa [phaseAfter] using ho
    rcases frleEffect_cases s with ⟨he, h'⟩ | ⟨b, rest, hb, h'⟩ <;> rw [effectOf, h'] at h
    · exact .inr (.inr ⟨rfl, hp, he, (Host.Outcome.next.inj h).symm⟩)
    · exact .inl ⟨hp, b, rest, hb, (Host.Outcome.next.inj h).symm⟩
  | fenc =>
    rcases fencEffect_cases subst_ne_zero s with ⟨k, _, h'⟩ | ⟨_, g, sum, b, rest, hs, hf, h'⟩ <;> rw [effectOf, h'] at h
    · exact .inr (.inl ⟨.inr rfl, _, (Host.Outcome.next.inj h).symm⟩)
    · exact .inl ⟨by simpa [phaseAfter] using ho, g, sum, b, rest, hs, hf, (Host.Outcome.next.inj h).symm⟩

/-- Everything one operation can do: nothing, in a halted block; trap entry with some cause; or its own effect. -/
theorem exec_cases {i : Instr} {s t : State} (h : exec i s = .next t) :
    (s.fault ≠ .none ∧ t = s)
      ∨ (s.fault = .none ∧ ∃ c info, c ≠ .none ∧ t = s.trapEntry c info
          ∧ (c = .emptySequence → i = .frle ∧ s.phase = .flat ∧ s.bitSequence = []))
      ∨ (s.fault = .none ∧ i.wellFormed = true ∧ Completes i s t) := by
  rw [exec_eq_runOperation] at h
  rcases runOperation_cases i (effectOf i) s with ⟨hf, h'⟩ | ⟨hf, _, h'⟩ | ⟨hf, _, _, h'⟩ | ⟨hf, hw, ho, h'⟩ <;> rw [h'] at h
  · exact .inl ⟨hf, (Host.Outcome.next.inj h).symm⟩
  · exact .inr (.inl ⟨hf, _, _, by decide, (Host.Outcome.next.inj h).symm, fun hc => by cases hc⟩)
  · exact .inr (.inl ⟨hf, _, _, by decide, (Host.Outcome.next.inj h).symm, fun hc => by cases hc⟩)
  · rcases effectOf_cases ho h with hc | ⟨_, info, ht⟩ | ⟨hi, hp, he, ht⟩
    · exact .inr (.inr ⟨hf, hw, hc⟩)
    · exact .inr (.inl ⟨hf, _, _, by decide, ht, fun hc => by cases hc⟩)
    · exact .inr (.inl ⟨hf, _, _, by decide, ht, fun _ => ⟨hi, hp, he⟩⟩)

/-- Everything a step can do: nothing issued, or one word issued. -/
theorem step_cases (s : State) :
    (s.issued = [] ∧ step s = .next s)
      ∨ ∃ W rest, s.issued = W :: rest ∧ step s = issueWord W (s.setIssued rest) := by
  cases h : s.issued with
  | nil => exact .inl ⟨rfl, by rw [step, nextIssued_nil h]⟩
  | cons W rest => exact .inr ⟨W, rest, rfl, by rw [step, nextIssued_cons h]⟩

/-- Everything issuing a word can do: the operation it spells, or the trap of a reserved word. -/
theorem issueWord_cases (W : Word) (s : State) :
    (∃ i, decode W = .operation i ∧ issueWord W s = exec i s)
      ∨ ∃ why, decode W = .reserved why ∧ issueWord W s = reservedWord W s := by
  unfold issueWord
  cases h : decode W with
  | operation i => exact .inl ⟨i, rfl, rfl⟩
  | reserved why => exact .inr ⟨why, rfl, rfl⟩

/-- Everything a step can leave: with the word taken from the host's list, the state as it was, a fault record, or one operation's own
effect. -/
theorem step_next_cases {s t : State} (h : step s = .next t) :
    t = s
      ∨ ∃ W rest, s.issued = W :: rest ∧
          (t = s.setIssued rest
            ∨ (s.fault = .none ∧ ∃ c info, c ≠ .none ∧ t = (s.setIssued rest).trapEntry c info
                ∧ (c = .emptySequence → s.phase = .flat ∧ s.bitSequence = []))
            ∨ (s.fault = .none ∧ ∃ i, decode W = .operation i ∧ i.wellFormed = true
                ∧ Completes i (s.setIssued rest) t)) := by
  rcases step_cases s with ⟨_, h'⟩ | ⟨W, rest, hw, h'⟩ <;> rw [h'] at h
  · exact .inl (Host.Outcome.next.inj h).symm
  · refine .inr ⟨W, rest, hw, ?_⟩
    have hf' : (s.setIssued rest).fault = s.fault := rfl
    rcases issueWord_cases W (s.setIssued rest) with ⟨i, hd, h2⟩ | ⟨why, _, h2⟩ <;> rw [h2] at h
    · rcases exec_cases h with ⟨_, ht⟩ | ⟨hf, c, info, hc, ht, he⟩ | ⟨hf, hi, hc⟩
      · exact .inl ht
      · exact .inr (.inl ⟨hf, c, info, hc, ht, fun h => (he h).2⟩)
      · exact .inr (.inr ⟨hf, i, hd, hi, hc⟩)
    · by_cases hf : s.fault = .none
      · rw [reservedWord_raises (hf'.trans hf)] at h
        exact .inr (.inl ⟨hf, _, _, by decide, (Host.Outcome.next.inj h).symm, fun hc => by cases hc⟩)
      · rw [reservedWord_halted (hf' ▸ hf)] at h
        exact .inl (Host.Outcome.next.inj h).symm

end Sys2Proof.Machine
end

