-- ==== Sys2Proof/Laws/PerInstr.lean ====
section
/-! SUPPORT. Statements made for each operation of Instr as syntax, one lemma a constructor. -/

namespace Sys2Proof.Laws.EncodeOpcode

/-- Bits [31:28] of an operation's word are its opcode, whatever its operands (30_encoding.md R71). -/
def Statement (i : Instr) : Prop := opField (encode i) = i.opcode

theorem finit (len : BitVec 4) (ft : BitVec 3) (aid : Byte) : Statement (.finit len ft aid) :=
  opField_encode_finit len ft aid

theorem fplace (tb : BitVec 4) (toff : BitVec 3) (w : BitVec 4) (so : BitVec 3) (val : Byte) :
    Statement (.fplace tb toff w so val) :=
  opField_encode_fplace tb toff w so val

theorem fsub : Statement .fsub := by unfold Statement; decide

theorem fflat : Statement .fflat := by unfold Statement; decide

theorem frle : Statement .frle := by unfold Statement; decide

theorem fenc : Statement .fenc := by unfold Statement; decide

end Sys2Proof.Laws.EncodeOpcode
end

