-- ==== Sys2Proof/Tests/Slice0.lean ====
section
/-! SUPPORT. Tests of the model on the vectors of 95_test_vectors.md, and for each statement with hypotheses a witness that
meets them. Every expected value is a vector of the spec or a hand calculation from the rule named. -/

namespace Sys2Proof.Machine

/-! ### WellFormed refuses each ill-formed operand (30_encoding.md R77) -/

theorem test_wellFormed_refuses_len_7 : (Instr.finit 7 0 0).wellFormed = false := by decide
theorem test_wellFormed_refuses_len_0 : (Instr.finit 0 0 0).wellFormed = false := by decide
theorem test_wellFormed_refuses_targetByte_9 : (Instr.fplace 9 0 1 0 1).wellFormed = false := by decide
theorem test_wellFormed_refuses_width_0 : (Instr.fplace 0 0 0 0 1).wellFormed = false := by decide
theorem test_wellFormed_refuses_width_9 : (Instr.fplace 0 0 9 0 1).wellFormed = false := by decide
theorem test_fieldSpecWF_refuses_target_overflow : fieldSpecWF 3 6 0 = false ∧ fieldSpecWF 2 6 0 = true := by decide
theorem test_fieldSpecWF_refuses_source_overflow : fieldSpecWF 0 6 3 = false ∧ fieldSpecWF 0 6 2 = true := by decide

/-! ### Decoding (95_test_vectors.md 2.1), each word written bit by bit from the formats of 30_encoding.md R72 to R74 -/

/-- op 0001, len 1001, 0, ft 111, 000000000000, aid 00001000 (V-DEC2) -/
theorem test_decode_finit : decode 0b0001_1001_0_111_000000000000_00001000 = .operation (.finit 9 7 8) := by decide

/-- op 0010, tb 0101, 0, to 000, w 0011, 0, so 011, 0000, val 00101101 (V-FP4) -/
theorem test_decode_fplace : decode 0b0010_0101_0_000_0011_0_011_0000_00101101 = .operation (.fplace 5 0 3 3 0x2D) := by
  decide

/-- V-DEC9: an ill-formed FieldSpec decodes -/
theorem test_decode_fplace_illFormedFieldSpec : decode 0x287870FF = .operation (.fplace 8 7 8 7 0xFF) := by decide

theorem test_decode_fsub : decode 0b0011_0000000000000000000000000000 = .operation .fsub := by decide
theorem test_decode_fflat : decode 0b0100_0000000000000000000000000000 = .operation .fflat := by decide
theorem test_decode_frle : decode 0b0101_0000000000000000000000000000 = .operation .frle := by decide
theorem test_decode_fenc : decode 0b0110_0000000000000000000000000000 = .operation .fenc := by decide

/-- V-DEC6, V-DEC13, V-DEC14, V-DEC15, V-DEC17: a one in each must-be-zero field -/
theorem test_decode_mustBeZero :
    [0x19800000, 0x19000100, 0x20810001, 0x20018001, 0x20010101, 0x30000001, 0x68000000].all
      (fun W => decode W == .reserved .mustBeZero) = true := by decide

/-- V-DEC4, V-DEC5, V-DEC10, V-DEC11, V-DEC12 -/
theorem test_decode_operandRanges :
    decode 0x17000000 = .reserved .frameLength ∧ decode 0x10000000 = .reserved .frameLength
      ∧ decode 0x29010001 = .reserved .targetByte ∧ decode 0x20000001 = .reserved .width
      ∧ decode 0x20090001 = .reserved .width := by decide

/-- V-DEC18 -/
theorem test_decode_opcodes :
    [0x00000000, 0x70000000, 0xF0000000, 0xFFFFFFFF].all (fun W => decode W == .reserved .opcode) = true := by decide

theorem test_decodeTableWord : decodeTableWord 32 0x22010001 = some (.fplace 2 0 1 0 1) := by decide
theorem test_decodeTableWord_reserved : decodeTableWord 32 0x29010001 = none := by decide

/-- V-FP5's word, 43_command_variants.md's FINIT word -/
theorem test_encode : encode (.fplace 8 2 2 6 0xC0) = 0x282260C0#32 ∧ encode (.finit 9 7 7) = 0x19700007#32 := by decide

/-- 30_encoding.md R80 and R81; P1 step 4 -/
theorem test_assembly : (Instr.fchan 4 0 0xFF).assembly = "FPLACE 4, 0, 6, 2, 255" ∧ Instr.fsub.assembly = "FSUB" := by
  decide +kernel

/-- P1 steps 1, 2, 4 and P2 step 3: the words of the pseudo-operations -/
theorem test_pseudo_operations :
    encode (.finitNoAction 6 0) = 0x16000000#32 ∧ encode (.fbit 2 0 true) = 0x22010001#32
      ∧ encode (.fchan 4 0 0xFF) = 0x240620FF#32 ∧ encode (.fput 3 0 6 0x2A) = 0x2306002A#32 := by decide

/-! ### Small states -/

/-- In BUILD with a given frame and length. -/
def building (f : Frame) (len : BitVec 4) : State := { State.reset with frame := f, len := len, phase := .build }

/-- In a phase with a given frame, bit sequence and its length, of length 6. -/
def holding (p : Phase) (f : Frame) (seq : List Bit) : State :=
  { State.reset with frame := f, len := 6, bits := fillBits seq, bitlen := BitVec.ofNat 7 seq.length, phase := p }

/-- A block halted by SubstDomain. -/
def haltedBlock : State := { building #v[0x80, 0, 2, 0x7F, 0, 0, 0, 0, 0] 6 with fault := .substDomain, finfo := 0x00007F03 }

/-- DONE with the frame of V-FL1, whose sequence is the single bit 1. -/
def doneBlock : State :=
  { holding .done #v[0x80, 0, 0, 0, 0, 0, 0, 0, 0] [true] with rle := fillRuns [1], rlelen := 1 }

/-- The frame of the state an operation leaves. -/
def frameAfter (r : Result) : Option Frame :=
  match r with
  | .next t => some t.frame
  | .fault _ => none
  | .refused _ => none

/-- Phase, fault and information word of the state an operation leaves. -/
def recordAfter (r : Result) : Option (Phase × Cause × Word) :=
  match r with
  | .next t => some (t.phase, t.fault, t.finfo)
  | .fault _ => none
  | .refused _ => none

/-- `TESTTAB[i] = 0x21 + 3*i` (95_test_vectors.md section 0): a fixture of the spec, not the device's table. -/
def testTable : Table := fun i => BitVec.ofNat 8 (0x21 + 3 * i.toNat)

/-! ### FINIT, FPLACE (95_test_vectors.md 2.2, 2.3) -/

/-- V-IN2 -/
theorem test_finit_action :
    frameAfter (exec (.finit 9 7 8) State.reset) = some #v[0x80, 0, 0x0E, 0, 0, 0, 0, 8, 0] := by decide

/-- V-IN3: the action id is ignored for length 6 -/
theorem test_finit_action_ignored :
    frameAfter (exec (.finit 6 7 255) doneBlock) = some #v[0x80, 0, 0x0E, 0, 0, 0, 0, 0, 0] := by decide

/-- V-EX7, V-EX9, V-EX12, V-EX13, V-EX14 -/
theorem test_extract :
    extract 0xA5 4 4 = 0x0A ∧ extract 0xA5 7 1 = 0x01 ∧ extract 0x2D 3 3 = 0x05 ∧ extract 0xFF 4 6 = 0x0F
      ∧ extract 0xFF 7 8 = 0x01 := by decide

/-- V-PL5, V-PL6, V-PL7, V-PL10 -/
theorem test_place :
    place 0x00 4 0x3F = 0xF0 ∧ place 0x00 7 0xFF = 0x80 ∧ place 0x05 3 0x05 = 0x2D ∧ place 0x21 1 0x10 = 0x21 := by
  decide

/-- V-FP5 -/
theorem test_fplace :
    frameAfter (exec (.fplace 8 2 2 6 0xC0) (building #v[0x80, 0, 0x0F, 0x2A, 5, 5, 0, 8, 0] 9))
      = some #v[0x80, 0, 0x0F, 0x2A, 5, 5, 0, 8, 0x0C] := by decide

/-- P6 step 2: an ill-formed FieldSpec executes -/
theorem test_fplace_truncates :
    frameAfter (exec (.fplace 8 7 8 7 0xFF) (building #v[0x80, 0, 0, 0, 0, 0, 0, 0, 0] 6))
      = some #v[0x80, 0, 0, 0, 0, 0, 0, 0, 0x80] := by decide

/-! ### Substitution (95_test_vectors.md 2.4, under TESTTAB) -/

/-- V-SU3 -/
theorem test_substitute_6 :
    substitute testTable #v[0x80, 0, 1, 0, 0x3F, 0x20, 0, 0, 0] 6
      = .coded #v[0x80, 0x9C, 0x24, 0x21, 0xDE, 0x81, 0, 0, 0] 0x01A4 := by decide +kernel

/-- V-SU5 -/
theorem test_substitute_9 :
    substitute testTable #v[0x80, 0xFF, 0x0F, 0x2A, 5, 5, 0, 8, 0x0C] 9
      = .coded #v[0x80, 0xD2, 0x4E, 0x9F, 0x30, 0x30, 0x21, 0x39, 0x45] 0x01EC := by decide +kernel

/-- V-SU19: the lowest index is reported -/
theorem test_fsub_outside :
    recordAfter (exec .fsub (building #v[0x80, 0, 0, 0x40, 0, 0xFF, 0, 0, 0] 6))
      = some (.build, .substDomain, 0x00004003) := by decide

/-- V-SU18: byte 7 is no payload for length 6 -/
theorem test_payload_6 :
    firstOutside #v[0x80, 0, 0x0A, 0, 0, 0, 0, 0xC8, 0] 6 = none
      ∧ firstOutside #v[0x80, 0, 0x0A, 0, 0, 0, 0, 0xC8, 0] 9 = some 7 := by decide

/-! ### Flatten, run lengths (95_test_vectors.md 2.5, 2.6) -/

/-- V-FL8 -/
theorem test_flatten :
    flatten #v[0x80, 0x9C, 0x24, 0, 0, 0, 0, 0, 0]
      = [true, false, false, true, true, true, false, false, true, false, false, true, false, false, true] := by
  decide +kernel

/-- V-FL7 -/
theorem test_flatten_empty : flatten #v[0, 0, 0, 0, 0, 0, 0, 0, 0] = [] := by decide +kernel

/-- V-FL2 as an operation: `BITLEN = 2`, `BITS = 1 1` -/
theorem test_fflat :
    exec .fflat (holding .coded #v[0x80, 1, 0, 0, 0, 0, 0, 0, 0] [])
      = .next (holding .flat #v[0x80, 1, 0, 0, 0, 0, 0, 0, 0] [true, true]) := by
  rw [exec_eq_runOperation, runOperation_inOrder rfl rfl rfl]
  refine congrArg Host.Outcome.next ?_
  decide +kernel

/-- V-RL6, V-RL22, and the empty sequence (42_run_length.md R141) -/
theorem test_rle :
    rle [true, true, true, false, true, true, true] = some [3, 1, 3] ∧ rle [false, true, true, false] = some [1, 2, 1]
      ∧ rle [] = none := by decide

/-- V-RL4 as an operation -/
theorem test_frle :
    exec .frle (holding .flat #v[0x80, 4, 0, 0, 0, 0, 0, 0, 0] [true, false, false, true])
      = .next { holding .done #v[0x80, 4, 0, 0, 0, 0, 0, 0, 0] [true, false, false, true] with
          rle := fillRuns [1, 2, 1], rlelen := 3 } := by
  rw [exec_eq_runOperation, runOperation_inOrder rfl rfl rfl]
  refine congrArg Host.Outcome.next ?_
  decide +kernel

/-! ### The whole encode (95_test_vectors.md 2.7, under TESTTAB) -/

/-- V-EN4, the frame and the runs -/
theorem test_encodeFrame :
    encodeFrame testTable #v[0x80, 0, 2, 0, 0, 0, 0, 0, 0] 6
      = .complete #v[0x80, 0x87, 0x27, 0x21, 0x21, 0x21, 0, 0, 0] 0x008A
          (flatten #v[0x80, 0x87, 0x27, 0x21, 0x21, 0x21, 0, 0, 0])
          [4, 4, 4, 2, 1, 2, 1, 4, 1, 2, 1, 4, 1, 2, 1, 4, 1] := by decide +kernel

/-- V-FT14 -/
theorem test_fenc_outside :
    exec .fenc (building #v[0x80, 0, 2, 0x7F, 0, 0, 0, 0, 0] 6) = .next haltedBlock := by
  rw [exec_eq_runOperation, runOperation_inOrder rfl rfl rfl]
  rfl

/-! ### Faults, order, priority (95_test_vectors.md 2.8), through a step -/

/-- V-FT1, V-FT2, V-FT3, V-FT4 -/
theorem test_faults_from_reset :
    recordAfter (step (State.reset.withFetchWord 32 0x30000000)) = some (.idle, .sequence, 0x30000000)
      ∧ recordAfter (step (State.reset.withFetchWord 32 0x22010001)) = some (.idle, .sequence, 0x22010001)
      ∧ recordAfter (step (State.reset.withFetchWord 32 0x29010001)) = some (.idle, .illegalOperation, 0x29010001)
      ∧ recordAfter (step (State.reset.withFetchWord 32 0)) = some (.idle, .illegalOperation, 0) := by decide

/-- V-FT5, V-FT6, V-FT12, V-FT9 -/
theorem test_faults_out_of_order :
    recordAfter (exec .fflat (building #v[0x80, 0, 0, 0, 0, 0, 0, 0, 0] 6)) = some (.build, .sequence, 0x40000000)
      ∧ recordAfter (exec .fsub (holding .coded #v[0x80, 0, 0, 0, 0, 0, 0, 0, 0] [])) = some (.coded, .sequence, 0x30000000)
      ∧ recordAfter (exec .fflat (holding .flat #v[0x80, 0, 0, 0, 0, 0, 0, 0, 0] [true])) = some (.flat, .sequence, 0x40000000)
      ∧ recordAfter (exec .fenc doneBlock) = some (.done, .sequence, 0x60000000) := by decide

/-- V-FT13: a halted block ignores FINIT and a reserved word -/
theorem test_halted :
    recordAfter (issueWord 0x16000000 haltedBlock) = some (.build, .substDomain, 0x00007F03)
      ∧ recordAfter (issueWord 0xFFFFFFFF haltedBlock) = some (.build, .substDomain, 0x00007F03) := by decide

/-- P1 step 1, run as the first operation after reset -/
theorem test_step_runs_the_word :
    frameAfter (step (State.reset.withFetchWord 32 0x16000000)) = some #v[0x80, 0, 0, 0, 0, 0, 0, 0, 0] := by decide

/-- R217 (b), R143: what the host reads of the output of V-RL1 -/
theorem test_hostRead :
    hostRead doneBlock .phase = 4 ∧ hostRead doneBlock (.rle 0) = 1 ∧ hostRead haltedBlock .finfo = 0x7F03
      ∧ runLengths doneBlock = [1] ∧ outputFresh doneBlock = true := by decide +kernel

/-! ### Witnesses: for each statement with hypotheses, values that meet them -/

/-- A placement onto byte 3, a colour channel (R106 (3)). -/
def redChannel : Placement := ⟨3, 0, 6, 2, 0xFF⟩

/-- A flag in byte 2, bit 0 (P1 step 2). -/
def onStart : Placement := ⟨2, 0, 1, 0, 1⟩

theorem witness_DecodingAnEncodedOperationGivesItBack :
    (Instr.finit 9 7 255).wellFormed = true ∧ (Instr.fplace 8 7 8 7 255).wellFormed = true
      ∧ (Instr.fplace 0 0 1 0 0).wellFormed = true ∧ Instr.fenc.wellFormed = true := by decide

theorem witness_EncodingADecodedWordGivesItBack : decode 0x282260C0 = .operation (.fplace 8 2 2 6 0xC0) := by decide

theorem witness_IllegalOperandsEncodeToReservedWords :
    ¬ ((7 : BitVec 4) = 6 ∨ (7 : BitVec 4) = 9) ∧ 9 ≤ (9 : BitVec 4).toNat
      ∧ ((8 : BitVec 4).toNat ≤ 8 ∧ ((0 : BitVec 4) = 0 ∨ 9 ≤ (0 : BitVec 4).toNat))
      ∧ ((8 : BitVec 4).toNat ≤ 8 ∧ ((9 : BitVec 4) = 0 ∨ 9 ≤ (9 : BitVec 4).toNat)) := by decide

/-- Each row is selected by some word, no other row by that word. -/
theorem witness_MatchAndMaskSelectTheDecodedRow :
    [0x19700008, 0x240620FF, 0x30000000, 0x40000000, 0x50000000, 0x60000000].map
      (fun W => (opcodeRows.filter fun r => r.selects W && r.inRange W).map OpcodeRow.mnemonic)
        = [["FINIT"], ["FPLACE"], ["FSUB"], ["FFLAT"], ["FRLE"], ["FENC"]] := by decide

theorem witness_OperandsAreTheFieldsOfTheWord :
    decode 0x19700008 = .operation (.finit 9 7 8) ∧ decode 0x282260C0 = .operation (.fplace 8 2 2 6 0xC0) := by decide

theorem witness_ReservedWordsAreTheListedClasses :
    decode 0x29010001 = .reserved .targetByte ∧ State.reset.fault = .none
      ∧ (8 : BitVec 4).toNat ≤ 8 ∧ 1 ≤ (8 : BitVec 4).toNat ∧ (8 : BitVec 4).toNat ≤ 8 := by decide

theorem witness_StepRunsTheDecodedOperation :
    (State.reset.withFetchWord 32 0x30000000).issued = [0x30000000] ∧ decode 0x30000000 = .operation .fsub := by decide

theorem witness_NothingIssuedNothingChanges : State.reset.issued = [] := by decide

theorem witness_HaltedBlockIgnoresEveryWord : haltedBlock.fault ≠ .none := by decide

/-- One state for each of the four checks. -/
theorem witness_ChecksAreMadeInTheirOrder :
    haltedBlock.fault ≠ .none
      ∧ (doneBlock.fault = .none ∧ decode 0x17000000 = .reserved .frameLength)
      ∧ (doneBlock.fault = .none ∧ decode 0x30000000 = .operation .fsub ∧ phaseAfter doneBlock.phase .fsub = none)
      ∧ (doneBlock.fault = .none ∧ decode 0x16000000 = .operation (.finit 6 0 0)
          ∧ phaseAfter doneBlock.phase (.finit 6 0 0) = some .build) := by decide

theorem witness_TrapEntryChangesOnlyTheFaultRecord :
    State.reset.fault = .none
      ∧ issueWord 0x30000000 State.reset = .next (State.reset.trapEntry .sequence 0x30000000)
      ∧ (State.reset.trapEntry .sequence 0x30000000).fault ≠ .none := ⟨rfl, rfl, by decide⟩

theorem witness_OperationsFollowThePhaseTable :
    (Instr.fplace 2 0 1 0 1).wellFormed = true ∧ State.reset.fault = .none
      ∧ phaseAfter State.reset.phase (.fplace 2 0 1 0 1) = none
      ∧ phaseAfter (building #v[0x80, 0, 0, 0, 0, 0, 0, 0, 0] 6).phase (.fplace 2 0 1 0 1) = some .build
      ∧ (building #v[0x80, 0, 0, 0, 0, 0, 0, 0, 0] 6).fault = .none := by decide

/-- `FINIT FINIT FPLACE`: a first block cut short, then a second cut short. -/
theorem witness_AcceptedSequencesAreTheEncodePattern :
    (∀ i ∈ [Instr.finit 9 0 0, .finit 6 0 0, onStart.fplace], i.wellFormed = true)
      ∧ runOps [.finit 9 0 0, .finit 6 0 0, onStart.fplace] State.reset
          = .next (building #v[0x80, 0, 1, 0, 0, 0, 0, 0, 0] 6)
      ∧ AcceptedSequence [.finit 9 0 0, .finit 6 0 0, onStart.fplace]
      ∧ (building #v[0x80, 0, 1, 0, 0, 0, 0, 0, 0] 6).fault = .none := by
  refine ⟨by decide, rfl, ⟨[[.finit 9 0 0], [.finit 6 0 0, onStart.fplace]], rfl, ?_⟩, rfl⟩
  intro b hb
  simp only [List.mem_cons, List.not_mem_nil, or_false] at hb
  rcases hb with rfl | rfl
  · exact ⟨9, 0, 0, [], [], rfl, by simp⟩
  · exact ⟨6, 0, 0, [onStart], [], rfl, by simp⟩

theorem witness_IllegalOperandsRaiseIllegalOperation :
    (Instr.finit 7 0 0).wellFormed = false ∧ (Instr.fplace 9 0 1 0 0).wellFormed = false ∧ doneBlock.fault = .none := by
  decide

theorem witness_HostReadsDetermineTheState :
    ∀ r, hostRead State.reset r = hostRead (State.reset.withFetchWord 32 5) r := by
  intro r; cases r <;> rfl

theorem witness_InitFrameBytes : ((6 : BitVec 4) = 6 ∨ (6 : BitVec 4) = 9) ∧ ((9 : BitVec 4) = 6 ∨ (9 : BitVec 4) = 9) := by
  decide

theorem witness_FinitInitialisesTheFrame :
    ((9 : BitVec 4) = 6 ∨ (9 : BitVec 4) = 9) ∧ doneBlock.fault = .none ∧ State.reset.fault = .none := by decide

/-- Width 1 and 8; a source field that just fits and one that just does not. -/
theorem witness_ExtractTakesTheSourceField :
    (1 ≤ (1 : BitVec 4).toNat ∧ (1 : BitVec 4).toNat ≤ 8 ∧ (7 : BitVec 3).toNat + (1 : BitVec 4).toNat ≤ 8)
      ∧ (1 ≤ (8 : BitVec 4).toNat ∧ (8 : BitVec 4).toNat ≤ 8 ∧ 8 < (1 : BitVec 3).toNat + (8 : BitVec 4).toNat) := by
  decide

theorem witness_PlaceOrsTheShiftedFragment : 1 ≤ (8 : BitVec 4).toNat ∧ (8 : BitVec 4).toNat ≤ 8 := by decide

theorem witness_FplacePlacesTheFragment :
    (8 : BitVec 4).toNat ≤ 8 ∧ 1 ≤ (8 : BitVec 4).toNat ∧ (8 : BitVec 4).toNat ≤ 8
      ∧ (building #v[0x80, 0, 0, 0, 0, 0, 0, 0, 0] 6).fault = .none
      ∧ (building #v[0x80, 0, 0, 0, 0, 0, 0, 0, 0] 6).phase = .build := by decide

/-- Two placements in BUILD; a bit that FINIT clears. -/
theorem witness_PlacementsOrTogether :
    (redChannel.legal = true ∧ onStart.legal = true ∧ (building #v[0x80, 0, 0, 0, 0, 0, 0, 0, 0] 6).fault = .none
        ∧ (building #v[0x80, 0, 0, 0, 0, 0, 0, 0, 0] 6).phase = .build)
      ∧ (building #v[0x80, 0, 1, 0, 0, 0, 0, 0, 0] 6).len = 6
      ∧ exec (.finit 6 0 0) (building #v[0x80, 0, 1, 0, 0, 0, 0, 0, 0] 6)
          = .next (building #v[0x80, 0, 0, 0, 0, 0, 0, 0, 0] 6)
      ∧ (readByte (building #v[0x80, 0, 1, 0, 0, 0, 0, 0, 0] 6).frame 2).getLsbD 0 = true
      ∧ (readByte (building #v[0x80, 0, 0, 0, 0, 0, 0, 0, 0] 6).frame 2).getLsbD 0 = false :=
  ⟨by decide, rfl, rfl, by decide, by decide⟩

theorem witness_PopulatedFrameIsTheOrOfItsPlacements :
    (∀ p ∈ [redChannel, onStart], p.legal = true) ∧ doneBlock.fault = .none
      ∧ [onStart, redChannel].Perm [redChannel, onStart] := ⟨by decide, by decide, List.Perm.swap _ _ _⟩

/-- FINIT, a colour channel in byte 3, a flag in byte 2 (P1's shape). -/
theorem test_populate :
    runOps (.finit 6 0 0 :: [redChannel, onStart].map Placement.fplace) State.reset
      = .next (building #v[0x80, 0, 1, 0x3F, 0, 0, 0, 0, 0] 6) := rfl

theorem witness_PopulatedFrameKeepsPreambleAndQuantises :
    (∀ p ∈ [redChannel, onStart], p.legal = true) ∧ State.reset.fault = .none
      ∧ runOps (.finit 6 0 0 :: [redChannel, onStart].map Placement.fplace) State.reset
          = .next (building #v[0x80, 0, 1, 0x3F, 0, 0, 0, 0, 0] 6)
      ∧ (∀ p ∈ [redChannel, onStart], p.tb ≠ 0)
      ∧ (∀ p ∈ [redChannel, onStart], p.tb = 2 → p.mask &&& 0x0E#8 = 0)
      ∧ [redChannel, onStart] = [] ++ ⟨3, 0, 6, 2, 0xFF⟩ :: [onStart]
      ∧ readByte (initFrame 6 0 0) 3 &&& (0x3F#8 <<< 0) = 0
      ∧ (∀ q ∈ [] ++ [onStart], q.tb = 3 → q.mask &&& (0x3F#8 <<< 0) = 0) :=
  ⟨by decide, rfl, test_populate, by decide, by decide, rfl, by decide, by decide⟩

/-- TESTTAB meets R56 (b) and (c), as 95_test_vectors.md section 0 says. -/
theorem witness_NoAdmissibleTableIsLeftOut : testTable.Admissible := by
  constructor
  · intro a b h
    have h' := congrArg BitVec.toNat h
    simp only [testTable, BitVec.toNat_ofNat] at h'
    exact BitVec.eq_of_toNat_eq (by omega)
  · intro i
    have := i.isLt
    constructor <;> intro h <;> have h' := congrArg BitVec.toNat h <;>
      simp [testTable] at h' <;> omega

/-- Payload bytes at the top of the domain, both lengths. -/
theorem witness_FsubSubstitutesThePayload :
    (building #v[0x80, 0, 63, 63, 63, 63, 0, 200, 0] 6).fault = .none
      ∧ (building #v[0x80, 0, 63, 63, 63, 63, 0, 200, 0] 6).phase = .build
      ∧ (∀ i < 6, 2 ≤ i → (readByte (building #v[0x80, 0, 63, 63, 63, 63, 0, 200, 0] 6).frame i).toNat < 64)
      ∧ (∀ i < 9, 2 ≤ i → (readByte (building #v[0x80, 0, 63, 63, 63, 63, 63, 63, 63] 9).frame i).toNat < 64) := by
  decide

/-- The first value outside, at the last payload byte of each length; and no byte outside. -/
theorem witness_SubstDomainReportsTheLowestByte :
    (building #v[0x80, 0, 63, 0, 0, 64, 0, 0, 0] 6).phase = .build
      ∧ 64 ≤ (readByte (building #v[0x80, 0, 63, 0, 0, 64, 0, 0, 0] 6).frame 5).toNat
      ∧ (∀ j < 5, 2 ≤ j → (readByte (building #v[0x80, 0, 63, 0, 0, 64, 0, 0, 0] 6).frame j).toNat < 64)
      ∧ 64 ≤ (readByte (building #v[0x80, 0, 0, 0, 0, 0, 0, 0, 64] 9).frame 8).toNat
      ∧ (∀ j < 8, 2 ≤ j → (readByte (building #v[0x80, 0, 0, 0, 0, 0, 0, 0, 64] 9).frame j).toNat < 64)
      ∧ (∀ k < 6, 2 ≤ k → (readByte (building #v[0x80, 0, 63, 0, 0, 0, 0, 0, 0] 6).frame k).toNat < 64) := by
  decide

/-- V-SU6, the largest sum under TESTTAB, and V-SU7. -/
theorem witness_SumNeverWraps :
    substitute testTable #v[0x80, 0, 63, 63, 63, 63, 63, 63, 63] 9
        = .coded #v[0x80, 0x2D, 0xDE, 0xDE, 0xDE, 0xDE, 0xDE, 0xDE, 0xDE] 0x0612
      ∧ substitute testTable #v[0x80, 0, 63, 63, 63, 63, 0, 0, 0] 6
        = .coded #v[0x80, 0x7B, 0xDE, 0xDE, 0xDE, 0xDE, 0, 0, 0] 0x0378
      ∧ (0x0612 : BitVec 16).setWidth 8 = (0x0112 : BitVec 16).setWidth 8 := by decide +kernel

/-- FSUB and FENC complete on a frame inside the domain. -/
theorem encodes_without_fault (i : Instr) (hi : i = .fsub ∨ i = .fenc) :
    ∃ t, exec i (building #v[0x80, 0, 2, 0, 0, 0, 0, 0, 0] 6) = .next t ∧ t.fault = .none := by
  have hout : firstOutside #v[0x80, 0, 2, 0, 0, 0, 0, 0, 0] 6 = none := by decide
  rcases hi with rfl | rfl
  · rw [exec_eq_runOperation, runOperation_inOrder rfl rfl rfl]
    rcases fsubEffect_cases Config.subst (building #v[0x80, 0, 2, 0, 0, 0, 0, 0, 0] 6) with ⟨k, hk, _⟩ | ⟨_, g, sum, _, h⟩
    · exact absurd (hk.symm.trans hout) (by simp)
    · exact ⟨_, h, rfl⟩
  · rw [exec_eq_runOperation, runOperation_inOrder rfl rfl rfl]
    rcases fencEffect_cases subst_ne_zero (building #v[0x80, 0, 2, 0, 0, 0, 0, 0, 0] 6) with
      ⟨k, hk, _⟩ | ⟨_, g, sum, b, rest, _, _, h⟩
    · exact absurd (hk.symm.trans hout) (by simp)
    · exact ⟨_, h, rfl⟩

theorem witness_PlacementsOnByteOneLeaveNoTrace :
    ∃ t, exec .fenc (building #v[0x80, 0, 2, 0, 0, 0, 0, 0, 0] 6) = .next t ∧ t.fault = .none :=
  encodes_without_fault .fenc (.inr rfl)

theorem witness_FrameBitsAreLeastSignificantFirst : readByte #v[0x80, 0x55, 0, 0, 0, 0, 0, 0, 0] 0 = 0x80 := by decide

/-- V-FL6: the first and last bit of the frame; V-FL7: none. -/
theorem witness_FlattenIsTheSliceFromFirstToLastOne :
    (∀ k < 72, (frameBits #v[0, 0, 0, 0, 0, 0, 0, 0, 0])[k]? = some false)
      ∧ (frameBits #v[0x81, 0, 0, 0, 0, 0, 0, 0, 0x80])[0]? = some true
      ∧ (frameBits #v[0x81, 0, 0, 0, 0, 0, 0, 0, 0x80])[71]? = some true
      ∧ (frameBits #v[0x80, 0, 0, 0, 0, 0, 0, 0, 0])[7]? = some true
      ∧ (∀ k < 7, (frameBits #v[0x80, 0, 0, 0, 0, 0, 0, 0, 0])[k]? = some false)
      ∧ (∀ k < 72, 7 < k → (frameBits #v[0x80, 0, 0, 0, 0, 0, 0, 0, 0])[k]? = some false) := by decide +kernel

theorem witness_FflatWritesTheBitSequence :
    (holding .coded #v[0x80, 1, 0, 0, 0, 0, 0, 0, 0] []).fault = .none
      ∧ (holding .coded #v[0x80, 1, 0, 0, 0, 0, 0, 0, 0] []).phase = .coded := ⟨rfl, rfl⟩

/-- V-SU1 and V-SU2, nothing placed beyond the length. -/
theorem witness_BitSequenceLengthBounds :
    substitute testTable #v[0x80, 0, 0, 0, 0, 0, 0, 0, 0] 6 = .coded #v[0x80, 0x84, 0x21, 0x21, 0x21, 0x21, 0, 0, 0] 0x0084
      ∧ substitute testTable #v[0x80, 0, 0, 0, 0, 0, 0, 0, 0] 9
        = .coded #v[0x80, 0xCC, 0x21, 0x21, 0x21, 0x21, 0x21, 0x21, 0x21] 0x00E7
      ∧ readByte #v[0x80, 0, 0, 0, 0, 0, 0, 0, 0] 0 = 0x80
      ∧ (∀ j < 9, 6 ≤ j → readByte #v[0x80, 0, 0, 0, 0, 0, 0, 0, 0] j = 0) := by decide +kernel

theorem witness_FrleWritesTheRunLengths :
    (holding .flat #v[0x80, 4, 0, 0, 0, 0, 0, 0, 0] [true]).bitlen ≠ 0
      ∧ (holding .flat #v[0x80, 4, 0, 0, 0, 0, 0, 0, 0] []).bitlen = 0
      ∧ (holding .flat #v[0x80, 4, 0, 0, 0, 0, 0, 0, 0] [true]).fault = .none
      ∧ (holding .flat #v[0x80, 4, 0, 0, 0, 0, 0, 0, 0] []).phase = .flat := ⟨by decide, rfl, rfl, rfl⟩

/-- V-RL5 -/
theorem witness_RunLengthsAddUpToTheSequence : rle [true, true, false, false, true, true] = some [2, 2, 2] := by decide

theorem witness_ExpandingTheRunsGivesTheSequence : rle (true :: [false, false, true]) = some [1, 2, 1] := by decide

theorem witness_RunLengthsDetermineTheSequence :
    (∀ n ∈ [1, 2, 1], 1 ≤ n) ∧ expandRuns true [1, 2, 1] = true :: [false, false, true]
      ∧ rle (true :: [true]) = rle (true :: [true]) := by decide

/-- V-RL7 -/
theorem witness_MarksAtBothEndsGiveAnOddRunCount :
    rle [true, false, true, false, true] = some [1, 1, 1, 1, 1] ∧ [true, false, true, false, true].head? = some true
      ∧ [true, false, true, false, true].getLast? = some true ∧ [true, false, true, false, true].length ≤ 72 := by decide

/-- The invariant holds of a block that has finished an encode, with any words still to be issued. -/
theorem doneBlock_stateInv (words : List Word) : StateInv (doneBlock.setIssued words) where
  idleIsReset := fun h => by cases h
  lenLegal := fun _ => .inl rfl
  magicBit := fun _ => show (readByte doneBlock.frame 0).getLsbD 7 = true by decide
  bitsTrimmed := .inr (show (fillBits [true])[0]? = some true ∧ (fillBits [true])[1 - 1]? = some true by decide +kernel)
  bitsZeroBeyond := show ∀ k : Fin 73, (1 : Nat) ≤ k.val → (fillBits [true])[k] = false by decide +kernel
  bitlenBound := show (1 : Nat) ≤ 72 by decide
  runsPositive := show ∀ k : Fin 73, k.val < 1 → 1 ≤ ((fillRuns [1])[k]).toNat by decide +kernel
  runsZeroBeyond := show ∀ k : Fin 73, (1 : Nat) ≤ k.val → (fillRuns [1])[k] = 0 by decide +kernel
  rlelenBound := show (1 : Nat) ≤ 71 by decide
  rlelenOdd := .inr rfl
  flatNonempty := fun _ => Nat.le_refl 1
  doneSum := fun _ => rfl
  doneRuns := fun _ => rfl
  sumBound := Nat.zero_le _
  noFaultNoInfo := fun _ => rfl

theorem witness_SentinelEndsTheRuns : StateInv (doneBlock.setIssued []) := doneBlock_stateInv []

theorem witness_FencEncodesTheFrame :
    (building #v[0x80, 0, 63, 63, 63, 63, 63, 63, 63] 9).fault = .none
      ∧ (building #v[0x80, 0, 63, 63, 63, 63, 63, 63, 63] 9).phase = .build
      ∧ (∀ i < 9, 2 ≤ i → (readByte (building #v[0x80, 0, 63, 63, 63, 63, 63, 63, 63] 9).frame i).toNat < 64) := by
  decide

/-- In BUILD inside the domain, outside it, and halted in BUILD. -/
theorem witness_FencEqualsTheThreeStages :
    (building #v[0x80, 0, 2, 0, 0, 0, 0, 0, 0] 6).phase = .build
      ∧ (building #v[0x80, 0, 2, 0x7F, 0, 0, 0, 0, 0] 6).phase = .build ∧ haltedBlock.phase = .build := ⟨rfl, rfl, rfl⟩

/-- Two blocks with one frame and different earlier output, both of which complete. -/
theorem witness_EncodeDependsOnlyOnFrameAndLength :
    (∃ s', exec .fenc (building #v[0x80, 0, 2, 0, 0, 0, 0, 0, 0] 6) = .next s')
      ∧ (∃ t', exec .fenc { building #v[0x80, 0, 2, 0, 0, 0, 0, 0, 0] 6 with rle := fillRuns [1], rlelen := 1 } = .next t') := by
  refine ⟨(encodes_without_fault .fenc (.inr rfl)).imp fun _ h => h.1, ?_⟩
  rw [exec_eq_runOperation, runOperation_inOrder rfl rfl rfl]
  rcases fencEffect_cases subst_ne_zero
    { building #v[0x80, 0, 2, 0, 0, 0, 0, 0, 0] 6 with rle := fillRuns [1], rlelen := 1 } with
    ⟨_, _, h⟩ | ⟨_, _, _, _, _, _, _, h⟩ <;> exact ⟨_, h⟩

theorem witness_EarlierEncodesDoNotLeak :
    State.reset.fault = .none ∧ doneBlock.fault = .none
      ∧ runOps (.finit 6 0 0 :: [onStart.fplace]) State.reset = .next (building #v[0x80, 0, 1, 0, 0, 0, 0, 0, 0] 6)
      ∧ runOps (.finit 6 0 0 :: [onStart.fplace]) doneBlock
          = .next { doneBlock with frame := #v[0x80, 0, 1, 0, 0, 0, 0, 0, 0], phase := .build } := ⟨rfl, rfl, rfl, rfl⟩

/-- Two states in BUILD with different earlier output, and the same FPLACE issued to both. -/
theorem witness_EveryWordKeepsTheCurrentEncodeTheSame :
    SameCurrentEncode (building #v[0x80, 0, 0, 0, 0, 0, 0, 0, 0] 6) { doneBlock with phase := .build }
      ∧ issueWord 0x22010001 (building #v[0x80, 0, 0, 0, 0, 0, 0, 0, 0] 6)
          = .next (building #v[0x80, 0, 1, 0, 0, 0, 0, 0, 0] 6)
      ∧ issueWord 0x22010001 { doneBlock with phase := .build }
          = .next { doneBlock with frame := #v[0x80, 0, 1, 0, 0, 0, 0, 0, 0], phase := .build } :=
  ⟨⟨rfl, rfl, rfl, rfl, by decide, by decide, by decide⟩, rfl, rfl⟩

/-- The largest action id and a field that just stays within bits 0 to 5. -/
theorem witness_EncodeProgramCompletes :
    (⟨9, 7, 63⟩ : CommandDescriptor).aid.toNat < 64 ∧ doneBlock.fault = .none
      ∧ (∀ p ∈ [redChannel, onStart, ⟨8, 5, 1, 0, 1⟩], p.legal = true ∧ p.toff.toNat + p.w.toNat ≤ 6) := by decide

theorem witness_RegistersAreWrittenOnlyByTheirOperations :
    exec (.fplace 2 0 1 0 1) (building #v[0x80, 0, 0, 0, 0, 0, 0, 0, 0] 6)
      = .next (building #v[0x80, 0, 1, 0, 0, 0, 0, 0, 0] 6) := rfl

theorem witness_StepKeepsTheInvariant :
    StateInv (doneBlock.setIssued [0x30000000])
      ∧ step (doneBlock.setIssued [0x30000000]) = .next (doneBlock.trapEntry .sequence 0x30000000) :=
  ⟨doneBlock_stateInv _, rfl⟩

theorem witness_StepKeepsTheBitsThoseOfTheFrame :
    BitsOfFrame (doneBlock.setIssued [0x16000000]) ∧ (doneBlock.setIssued [0x16000000]).phase = .done
      ∧ step (doneBlock.setIssued [0x16000000]) = .next { doneBlock with phase := .build } :=
  ⟨fun _ => by decide +kernel, rfl, rfl⟩

/-- CODED with a payload of zeros, whose sum is 0. -/
theorem witness_StepKeepsTheChecksumOfTheFrame :
    ChecksumOfFrame { building #v[0x80, Config.subst (checksum 0), 0, 0, 0, 0, 0, 0, 0] 6 with phase := .coded } :=
  fun _ => ⟨rfl, rfl⟩

theorem witness_MagicStaysUnlessPlacedUpon :
    (doneBlock.setIssued [0x16000000]).issued = [0x16000000]
      ∧ step (doneBlock.setIssued [0x16000000]) = .next { doneBlock with phase := .build }
      ∧ decode 0x16000000 = .operation (.finit 6 0 0)
      ∧ readByte doneBlock.frame 0 = 0x80 := ⟨rfl, rfl, by decide, by decide⟩

theorem witness_EmptySequenceIsNeverRaised :
    StateInv (doneBlock.setIssued [0x50000000]) ∧ (doneBlock.setIssued [0x50000000]).fault ≠ .emptySequence
      ∧ step (doneBlock.setIssued [0x50000000]) = .next (doneBlock.trapEntry .sequence 0x50000000) :=
  ⟨doneBlock_stateInv _, by decide, rfl⟩

end Sys2Proof.Machine
end

section
/-! The state family (10_state.md): which operation writes which register, what the host reads, and the invariant of R35 with its
companions over a step. -/

namespace Sys2Proof.Machine

/-! ### One operation, one step -/

/-- FENC completes as FSUB, FFLAT and FRLE one after the other (42_run_length.md R145), so what the three stages keep, it keeps. -/
theorem completes_fenc_stages {s t : State} (h : Completes .fenc s t) :
    ∃ s₁ s₂, Completes .fsub s s₁ ∧ Completes .fflat s₁ s₂ ∧ Completes .frle s₂ t := by
  obtain ⟨hp, g, sum, b, rest, hs, hf, rfl⟩ := h
  refine ⟨((s.setFrame g).setSum sum).setPhase .coded,
    (((s.setFrame g).setSum sum).writeBitSequence (flatten g)).setPhase .flat, ⟨hp, g, sum, hs, rfl⟩, ⟨rfl, rfl⟩, rfl,
    b, rest, ?_, rfl⟩
  rw [← hf]
  exact bitSequence_of_filled ((flatten_length_le g).trans (by decide)) rfl rfl

/-- A property that taking a word, a fault record and the issued operation keep is kept by the step. -/
theorem step_keeps {P : State → Prop} {s t : State} (h : step s = .next t) (hs : P s)
    (issue : ∀ ws, P s → P (s.setIssued ws))
    (trap : ∀ u c info, c ≠ .none → P u → P (u.trapEntry c info))
    (op : ∀ W rest i, s.issued = W :: rest → decode W = .operation i → i.wellFormed = true →
      P (s.setIssued rest) → Completes i (s.setIssued rest) t → P t) : P t := by
  rcases step_next_cases h with rfl | ⟨W, rest, hw, rfl | ⟨_, c, info, hc, rfl, _⟩ | ⟨_, i, hd, hi, ht⟩⟩
  · exact hs
  · exact issue rest hs
  · exact trap _ c info hc (issue rest hs)
  · exact op W rest i hw hd hi (issue rest hs) ht

/-! ### The frame an operation leaves -/

theorem readByte_initFrame_zero (len : BitVec 4) (ft : BitVec 3) (aid : Byte) :
    readByte (initFrame len ft aid) 0 = 0x80 := by
  unfold initFrame
  split <;> simp [readByte_writeByte]

theorem readByte_placeField_ne {f : Frame} {tb : BitVec 4} {toff : BitVec 3} {w : BitVec 4} {so : BitVec 3} {val : Byte}
    {j : Nat} (h : j ≠ tb.toNat) : readByte (placeField f tb toff w so val) j = readByte f j := by
  rw [readByte_placeField, if_neg fun hc => h hc.1]

/-- The coded frame and the sum `substitute` returns (41_frame_encode.md R121). -/
theorem substitute_coded {T : Table} {f g : Frame} {len : BitVec 4} {sum : BitVec 16}
    (h : substitute T f len = .coded g sum) :
    sum.toNat = ((payload len).map fun i => (readTable T (readByte f i)).toNat).sum
      ∧ ∀ j, readByte g j =
          if j = 1 then T (checksum sum) else if j ∈ payload len then readTable T (readByte f j) else readByte f j := by
  rcases substitute_cases T f len with ⟨k, _, h'⟩ | ⟨_, g', sum', h', hsum, hg⟩ <;> rw [h'] at h
  · cases h
  · cases h; exact ⟨hsum, hg⟩

/-- Substitution leaves every byte that is neither byte 1 nor payload. -/
theorem substitute_coded_keeps {T : Table} {f g : Frame} {len : BitVec 4} {sum : BitVec 16} {j : Nat}
    (h : substitute T f len = .coded g sum) (h1 : j ≠ 1) (hj : j ∉ payload len) : readByte g j = readByte f j := by
  rw [(substitute_coded h).2 j, if_neg h1, if_neg hj]

/-- The sum is that of the coded payload. -/
theorem substitute_coded_sum {T : Table} {f g : Frame} {len : BitVec 4} {sum : BitVec 16}
    (h : substitute T f len = .coded g sum) : sum.toNat = ((payload len).map fun i => (readByte g i).toNat).sum := by
  obtain ⟨hsum, hg⟩ := substitute_coded h
  rw [hsum]
  congr 1
  apply List.map_congr_left
  intro i hi
  have h2 : 2 ≤ i := (mem_payload.mp hi).2.1
  rw [hg i, if_neg (by omega), if_pos hi]

/-- Seven codes of at most 255 (41_frame_encode.md R124). -/
theorem substitute_coded_sum_le {T : Table} {f g : Frame} {len : BitVec 4} {sum : BitVec 16}
    (h : substitute T f len = .coded g sum) : sum.toNat ≤ 1785 := by
  rw [substitute_coded_sum h]
  have := byte_sum_le (payload len) (readByte g)
  have := payload_length_le len
  omega

theorem zero_not_mem_payload (len : BitVec 4) : 0 ∉ payload len := fun h => by
  have := (mem_payload.mp h).2.1
  omega

/-- Substitution leaves byte 0 and every byte from 2 on that lies beyond the frame length. -/
theorem substitute_coded_outside {T : Table} {f g : Frame} {len : BitVec 4} {sum : BitVec 16}
    (h : substitute T f len = .coded g sum) :
    readByte g 0 = readByte f 0 ∧ ∀ j, 2 ≤ j → len.toNat ≤ j → readByte g j = readByte f j := by
  refine ⟨substitute_coded_keeps h (by decide) (zero_not_mem_payload len), fun j h2 hlen => ?_⟩
  refine substitute_coded_keeps h (by omega) fun hmem => ?_
  have := (mem_payload.mp hmem).2.2
  omega

/-- An operation that completes, other than FINIT and an FPLACE on byte 0, leaves byte 0. -/
theorem completes_byteZero {i : Instr} {s t : State} (h : Completes i s t) (hf : ∀ len ft aid, i ≠ .finit len ft aid)
    (hp : ∀ toff w so val, i ≠ .fplace 0 toff w so val) : readByte t.frame 0 = readByte s.frame 0 := by
  cases i with
  | finit len ft aid => exact absurd rfl (hf len ft aid)
  | fplace tb toff w so val =>
    obtain ⟨_, rfl⟩ := h
    have htb : 0 ≠ tb.toNat := fun h0 => hp toff w so val (by rw [BitVec.eq_of_toNat_eq (x := tb) (y := 0) h0.symm])
    exact readByte_placeField_ne htb
  | fsub =>
    obtain ⟨_, g, sum, hs, rfl⟩ := h
    exact (substitute_coded_outside hs).1
  | fflat => obtain ⟨_, rfl⟩ := h; rfl
  | frle => obtain ⟨_, b, rest, _, rfl⟩ := h; rfl
  | fenc =>
    obtain ⟨_, g, sum, b, rest, hs, _, rfl⟩ := h
    exact (substitute_coded_outside hs).1

/-- In IDLE nothing but FINIT completes. -/
theorem completes_idle {i : Instr} {s t : State} (h : Completes i s t) (hp : s.phase = .idle) :
    ∃ len ft aid, i = .finit len ft aid := by
  cases i with
  | finit len ft aid => exact ⟨len, ft, aid, rfl⟩
  | fplace | fsub | fflat | frle | fenc => have hp' := h.1; rw [hp] at hp'; cases hp'

/-! ### The registers -/

theorem Phase.code_injective : Function.Injective Phase.code := by
  intro p q; cases p <;> cases q <;> decide

theorem Cause.code_injective : Function.Injective Cause.code := by
  intro c d; cases c <;> cases d <;> decide

theorem bool_toNat_injective : Function.Injective Bool.toNat := by decide

/-- Two states whose registers are equal differ at most in the host's list. -/
theorem State.eq_of_registers {s t : State} (frame : s.frame = t.frame) (len : s.len = t.len) (sum : s.sum = t.sum)
    (bits : s.bits = t.bits) (bitlen : s.bitlen = t.bitlen) (rle : s.rle = t.rle) (rlelen : s.rlelen = t.rlelen)
    (phase : s.phase = t.phase) (fault : s.fault = t.fault) (finfo : s.finfo = t.finfo) :
    s = { t with issued := s.issued } := by
  cases s; cases t; simp_all

/-- Settles O20: each register is determined by what the host reads of it. -/
theorem hostReadsDetermineTheState : Obligations.HostReadsDetermineTheState := by
  intro s t h
  have frame : s.frame = t.frame := Vector.ext fun i hi => BitVec.eq_of_toNat_eq (h (.frame ⟨i, hi⟩))
  have bits : s.bits = t.bits := Vector.ext fun k hk => bool_toNat_injective (h (.bits ⟨k, hk⟩))
  have rle : s.rle = t.rle := Vector.ext fun k hk => BitVec.eq_of_toNat_eq (h (.rle ⟨k, hk⟩))
  exact State.eq_of_registers frame (BitVec.eq_of_toNat_eq (h .len)) (BitVec.eq_of_toNat_eq (h .sum)) bits
    (BitVec.eq_of_toNat_eq (h .bitlen)) rle (BitVec.eq_of_toNat_eq (h .rlelen))
    (Phase.code_injective (BitVec.eq_of_toNat_eq (h .phase))) (Cause.code_injective (BitVec.eq_of_toNat_eq (h .fault)))
    (BitVec.eq_of_toNat_eq (h .finfo))

/-- What the host reads does not depend on its list of words. -/
theorem hostRead_setIssued (s : State) (ws : List Word) (r : HostRegister) : hostRead (s.setIssued ws) r = hostRead s r := by
  cases r <;> rfl

theorem hostRead_reset (r : HostRegister) : hostRead State.reset r = 0 := by
  cases r with
  | frame | bits | rle => simp [hostRead, State.reset]
  | len | sum | bitlen | rlelen | phase | fault | finfo => rfl

/-- Settles O19: the reset state reads zero, and hostReset differs from it only in the host's list. -/
theorem resetLeavesEveryRegisterZero : Obligations.ResetLeavesEveryRegisterZero :=
  ⟨hostRead_reset, fun _ => ⟨fun r => (hostRead_setIssued _ _ r).trans (hostRead_reset r), rfl⟩⟩

/-! ### Which operation writes which register -/

/-- Settles O52, by what each operation leaves when it completes; a halted block and a fault record write none of these registers. -/
theorem registersAreWrittenOnlyByTheirOperations : Obligations.RegistersAreWrittenOnlyByTheirOperations := by
  intro i s t h
  rcases exec_cases h with ⟨hf, rfl⟩ | ⟨_, c, info, hc, rfl, _⟩ | ⟨hf, _, hcomp⟩
  · simp [hf]
  · simp [hc]
  · cases i with
    | finit => cases hcomp; simp [hf]
    | fplace => obtain ⟨_, rfl⟩ := hcomp; simp +contextual [hf, readByte_placeField_ne]
    | fsub => obtain ⟨_, g, sum, hs, rfl⟩ := hcomp; simpa [hf] using substitute_coded_outside hs
    | fflat => obtain ⟨_, rfl⟩ := hcomp; simp [hf]
    | frle => obtain ⟨_, b, rest, _, rfl⟩ := hcomp; simp [hf]
    | fenc => obtain ⟨_, g, sum, b, rest, hs, _, rfl⟩ := hcomp; simpa [hf] using substitute_coded_outside hs

/-! ### BITS and RLE under the invariant -/

/-- A bit sequence is empty or starts and ends with a 1 (41_frame_encode.md R125). -/
def Trimmed (seq : List Bit) : Prop := seq = [] ∨ (seq.head? = some true ∧ seq.getLast? = some true)

theorem flatten_trimmed (f : Frame) : Trimmed (flatten f) := flatten_ends f

/-- 10_state.md R35 item 3. -/
structure BitsInv (s : State) : Prop where
  trimmed : s.bitlen = 0 ∨ (s.bits[0]? = some true ∧ s.bits[s.bitlen.toNat - 1]? = some true)
  zeroBeyond : ∀ k : Fin 73, s.bitlen.toNat ≤ k.val → s.bits[k] = false
  bound : s.bitlen.toNat ≤ 72

/-- 10_state.md R35 item 4. -/
structure RunsInv (s : State) : Prop where
  positive : ∀ k : Fin 73, k.val < s.rlelen.toNat → 1 ≤ s.rle[k].toNat
  zeroBeyond : ∀ k : Fin 73, s.rlelen.toNat ≤ k.val → s.rle[k] = 0
  bound : s.rlelen.toNat ≤ 71
  odd : s.rlelen.toNat = 0 ∨ s.rlelen.toNat % 2 = 1

theorem StateInv.bitsInv {s : State} (h : StateInv s) : BitsInv s :=
  ⟨h.bitsTrimmed, h.bitsZeroBeyond, h.bitlenBound⟩

theorem bitSequence_length {s : State} (h : s.bitlen.toNat ≤ 73) : s.bitSequence.length = s.bitlen.toNat := by
  simp [State.bitSequence, h]

/-- Under item 3 the sequence FRLE reads is trimmed. -/
theorem BitsInv.bitSequence_trimmed {s : State} (h : BitsInv s) : Trimmed s.bitSequence := by
  rcases h.trimmed with h0 | ⟨hfirst, hlast⟩
  · exact .inl (by simp [State.bitSequence, h0])
  · by_cases h0 : s.bitlen.toNat = 0
    · exact .inl (by simp [State.bitSequence, h0])
    · refine .inr ⟨?_, ?_⟩
      · rw [State.bitSequence, List.head?_take, if_neg h0, List.head?_eq_getElem?, Vector.getElem?_toList, hfirst]
      · simp [State.bitSequence, List.getLast?_take, h0, hlast]

theorem writeBitSequence_bitlen_toNat {s : State} {seq : List Bit} (h : seq.length ≤ 72) :
    (s.writeBitSequence seq).bitlen.toNat = seq.length := by
  rw [State.writeBitSequence_bitlen, BitVec.toNat_ofNat, Nat.mod_eq_of_lt (by omega)]

/-- Filling BITS from a trimmed sequence makes item 3 hold. -/
theorem bitsInv_writeBitSequence {s : State} {seq : List Bit} (hl : seq.length ≤ 72) (ht : Trimmed seq) :
    BitsInv (s.writeBitSequence seq) := by
  have hn := writeBitSequence_bitlen_toNat (s := s) hl
  constructor
  · rcases ht with rfl | ⟨hfirst, hlast⟩
    · exact .inl rfl
    · rw [List.head?_eq_getElem?] at hfirst
      rw [List.getLast?_eq_getElem?] at hlast
      rw [hn, State.writeBitSequence_bits]
      refine .inr ⟨?_, ?_⟩
      · simp [hfirst]
      · rw [Vector.getElem?_eq_getElem (by omega), fillBits_getElem, List.getD_eq_getElem?_getD, hlast]; rfl
  · intro k hk
    rw [hn] at hk
    simp [hk]
  · rwa [hn]

theorem writeRunLengths_rlelen_toNat {s : State} {out : List Nat} (h : out.length ≤ 73) :
    (s.writeRunLengths out).rlelen.toNat = out.length := by
  rw [State.writeRunLengths_rlelen, BitVec.toNat_ofNat, Nat.mod_eq_of_lt (by omega)]

/-- The run lengths read back are those written, when each fits its entry. -/
theorem runLengths_writeRunLengths {s : State} {out : List Nat} (hl : out.length ≤ 73) (hb : ∀ n ∈ out, n < 256) :
    runLengths (s.writeRunLengths out) = out := by
  have hn := writeRunLengths_rlelen_toNat (s := s) hl
  apply List.ext_getElem
  · rw [runLengths, hn]
    simp [hl]
  · intro j _ hj
    have : j < 73 := by omega
    simp [runLengths, hj, Nat.mod_eq_of_lt (hb _ (List.getElem_mem hj))]

/-- Filling RLE from an odd number of positive runs makes item 4 hold. -/
theorem runsInv_writeRunLengths {s : State} {out : List Nat} (hl : out.length ≤ 71) (ho : out.length % 2 = 1)
    (hpos : ∀ n ∈ out, 1 ≤ n) (hb : ∀ n ∈ out, n < 256) : RunsInv (s.writeRunLengths out) := by
  have hn := writeRunLengths_rlelen_toNat (s := s) (out := out) (by omega)
  constructor
  · intro k hk
    rw [hn] at hk
    have hmem := List.getElem_mem hk
    simpa [hk, Nat.mod_eq_of_lt (hb _ hmem)] using hpos _ hmem
  · intro k hk
    rw [hn] at hk
    simp [hk]
  · rwa [hn]
  · rw [hn]; exact .inr ho

/-- The runs of a sequence that starts and ends with a 1 are odd in number (42_run_length.md R144 (5)). -/
theorem rleWalk_odd_of_trimmed {b : Bit} {rest : List Bit} (h : Trimmed (b :: rest)) :
    (rleWalk b 1 rest).length % 2 = 1 := by
  rcases h with h | ⟨hfirst, hlast⟩
  · cases h
  · rw [List.head?_cons, Option.some.injEq] at hfirst
    rw [List.getLast?_cons, Option.some.injEq] at hlast
    rw [rleWalk_parity, if_pos (hlast.trans hfirst.symm)]

/-- No run is longer than the sequence. -/
theorem rleWalk_le_length {b : Bit} {rest : List Bit} {n : Nat} (h : n ∈ rleWalk b 1 rest) : n ≤ (b :: rest).length := by
  have := List.le_sum_of_mem h
  rw [rleWalk_sum] at this
  rw [List.length_cons]
  omega

/-! ### The invariant, assignment by assignment -/

/-- Settles O53: every register is zero, and in IDLE the clauses on the frame say nothing. -/
theorem invariantHoldsAtReset : Obligations.InvariantHoldsAtReset := by
  refine ⟨?_, by simp [BitsOfFrame, State.reset], by simp [ChecksumOfFrame, State.reset]⟩
  constructor <;> simp [State.reset]

/-- Taking a word from the host's list writes no register. -/
theorem StateInv.setIssued {s : State} (h : StateInv s) (ws : List Word) : StateInv (s.setIssued ws) :=
  { h with idleIsReset := fun hp => congrArg (·.setIssued ws) (h.idleIsReset hp) }

/-- A fault record writes FAULT and FINFO only (60_exceptions.md R190). -/
theorem StateInv.trapEntry {s : State} (h : StateInv s) {c : Cause} (hc : c ≠ .none) (info : Word) :
    StateInv (s.trapEntry c info) :=
  { h with
    idleIsReset := fun hp => congrArg (·.trapEntry c info) (h.idleIsReset hp)
    noFaultNoInfo := fun h0 => absurd h0 hc }

/-- Under item 2 the flatten of the frame is not empty. -/
theorem flatten_ne_nil_of_magicBit {f : Frame} (h : (readByte f 0).getLsbD 7 = true) : flatten f ≠ [] :=
  flatten_ne_nil_of_byte (j := 0) fun h0 => by rw [h0] at h; simp at h

theorem StateInv.finit {s t : State} {len : BitVec 4} {ft : BitVec 3} {aid : Byte} (h : StateInv s)
    (hw : (Instr.finit len ft aid).wellFormed = true) (hc : Completes (.finit len ft aid) s t) : StateInv t := by
  cases hc
  exact { h with
    idleIsReset := nofun
    lenLegal := fun _ => by simpa [Instr.wellFormed, legalLen] using hw
    magicBit := fun _ => by simp [readByte_initFrame_zero]
    flatNonempty := nofun
    doneSum := nofun
    doneRuns := nofun }

/-- A placement sets bits and clears none (40_frame_build.md R103). -/
theorem getLsbD_placeField {f : Frame} {tb : BitVec 4} {toff : BitVec 3} {w : BitVec 4} {so : BitVec 3} {val : Byte}
    {j k : Nat} (h : (readByte f j).getLsbD k = true) : (readByte (placeField f tb toff w so val) j).getLsbD k = true := by
  rw [readByte_placeField]
  split
  · rename_i hj
    rw [place, BitVec.getLsbD_or, ← hj.1, h, Bool.true_or]
  · exact h

theorem StateInv.fplace {s t : State} {tb : BitVec 4} {toff : BitVec 3} {w : BitVec 4} {so : BitVec 3} {val : Byte}
    (h : StateInv s) (hc : Completes (.fplace tb toff w so val) s t) : StateInv t := by
  obtain ⟨hp, rfl⟩ := hc
  have hidle : s.phase ≠ .idle := by simp [hp]
  exact { h with
    idleIsReset := fun hi => absurd hi hidle
    magicBit := fun _ => getLsbD_placeField (h.magicBit hidle) }

theorem StateInv.fsub {s t : State} (h : StateInv s) (hc : Completes .fsub s t) : StateInv t := by
  obtain ⟨hp, g, sum, hs, rfl⟩ := hc
  have hidle : s.phase ≠ .idle := by simp [hp]
  exact { h with
    idleIsReset := nofun
    lenLegal := fun _ => h.lenLegal hidle
    magicBit := fun _ => by simpa [(substitute_coded_outside hs).1] using h.magicBit hidle
    flatNonempty := nofun
    doneSum := nofun
    doneRuns := nofun
    sumBound := substitute_coded_sum_le hs }

theorem StateInv.fflat {s t : State} (h : StateInv s) (hc : Completes .fflat s t) : StateInv t := by
  obtain ⟨hp, rfl⟩ := hc
  have hidle : s.phase ≠ .idle := by simp [hp]
  have hbits := bitsInv_writeBitSequence (s := s) (flatten_length_le s.frame) (flatten_trimmed s.frame)
  have hlen := writeBitSequence_bitlen_toNat (s := s) (flatten_length_le s.frame)
  exact { h with
    idleIsReset := nofun
    lenLegal := fun _ => h.lenLegal hidle
    magicBit := fun _ => h.magicBit hidle
    bitsTrimmed := hbits.trimmed
    bitsZeroBeyond := hbits.zeroBeyond
    bitlenBound := hbits.bound
    flatNonempty := fun _ => hlen.symm ▸ List.length_pos_iff.mpr (flatten_ne_nil_of_magicBit (h.magicBit hidle))
    doneSum := nofun
    doneRuns := nofun }

theorem StateInv.frle {s t : State} (h : StateInv s) (hc : Completes .frle s t) : StateInv t := by
  obtain ⟨hp, b, rest, hseq, rfl⟩ := hc
  have hidle : s.phase ≠ .idle := by simp [hp]
  have hbitlen : (b :: rest).length = s.bitlen.toNat := hseq ▸ bitSequence_length (h.bitlenBound.trans (by decide))
  have hcap : (b :: rest).length ≤ 72 := hbitlen ▸ h.bitlenBound
  have hodd : (rleWalk b 1 rest).length % 2 = 1 := rleWalk_odd_of_trimmed (hseq ▸ h.bitsInv.bitSequence_trimmed)
  have hcount : (rleWalk b 1 rest).length ≤ 71 := by
    have := (rleWalk_length b 1 rest).2
    rw [List.length_cons] at hcap
    omega
  have hfits : ∀ n ∈ rleWalk b 1 rest, n < 256 := fun n hn => by
    have := rleWalk_le_length hn
    omega
  have hruns := runsInv_writeRunLengths (s := s) hcount hodd (rleWalk_pos b 1 rest (Nat.le_refl 1)) hfits
  have hread := runLengths_writeRunLengths (s := s) (hcount.trans (by decide)) hfits
  exact { h with
    idleIsReset := nofun
    lenLegal := fun _ => h.lenLegal hidle
    magicBit := fun _ => h.magicBit hidle
    runsPositive := hruns.positive
    runsZeroBeyond := hruns.zeroBeyond
    rlelenBound := hruns.bound
    rlelenOdd := hruns.odd
    flatNonempty := fun _ => h.flatNonempty (.inl hp)
    doneSum := fun _ => by
      calc (runLengths (s.writeRunLengths (rleWalk b 1 rest))).sum = 1 + rest.length := by rw [hread, rleWalk_sum]
        _ = s.bitlen.toNat := by rw [← hbitlen, List.length_cons, Nat.add_comm]
    doneRuns := fun _ => by
      calc rle s.bitSequence = some (rleWalk b 1 rest) := by rw [hseq]; rfl
        _ = some (runLengths (s.writeRunLengths (rleWalk b 1 rest))) := by rw [hread] }

/-- Every operation that completes keeps the invariant; FENC by its three stages. -/
theorem StateInv.completes {i : Instr} {s t : State} (h : StateInv s) (hw : i.wellFormed = true) (hc : Completes i s t) :
    StateInv t := by
  cases i with
  | finit => exact h.finit hw hc
  | fplace => exact h.fplace hc
  | fsub => exact h.fsub hc
  | fflat => exact h.fflat hc
  | frle => exact h.frle hc
  | fenc =>
    obtain ⟨s₁, s₂, h₁, h₂, h₃⟩ := completes_fenc_stages hc
    exact ((h.fsub h₁).fflat h₂).frle h₃

/-- Settles O54: taking a word, a fault record and every operation that completes keep the invariant. -/
theorem stepKeepsTheInvariant : Obligations.StepKeepsTheInvariant := by
  intro s t hs h
  exact step_keeps h hs (fun ws hs => hs.setIssued ws) (fun _ _ info hc hu => hu.trapEntry hc info)
    fun _ _ _ _ _ hw hu hc => hu.completes hw hc

/-! ### SUM and byte 1 -/

theorem ChecksumOfFrame.of_fsub {s t : State} (hc : Completes .fsub s t) : ChecksumOfFrame t := by
  obtain ⟨_, g, sum, hs, rfl⟩ := hc
  exact fun _ => ⟨substitute_coded_sum hs, (substitute_coded hs).2 1⟩

theorem ChecksumOfFrame.fflat {s t : State} (h : ChecksumOfFrame s) (hc : Completes .fflat s t) : ChecksumOfFrame t := by
  obtain ⟨hp, rfl⟩ := hc
  exact fun _ => h (.inl hp)

theorem ChecksumOfFrame.frle {s t : State} (h : ChecksumOfFrame s) (hc : Completes .frle s t) : ChecksumOfFrame t := by
  obtain ⟨hp, b, rest, _, rfl⟩ := hc
  exact fun _ => h (.inr (.inl hp))

/-- Every operation that completes keeps the clause: FINIT and FPLACE end in BUILD, where it says nothing. -/
theorem ChecksumOfFrame.completes {i : Instr} {s t : State} (h : ChecksumOfFrame s) (hc : Completes i s t) :
    ChecksumOfFrame t := by
  cases i with
  | finit => cases hc; simp [ChecksumOfFrame]
  | fplace => obtain ⟨hp, rfl⟩ := hc; simp [ChecksumOfFrame, hp]
  | fsub => exact .of_fsub hc
  | fflat => exact h.fflat hc
  | frle => exact h.frle hc
  | fenc =>
    obtain ⟨s₁, s₂, h₁, h₂, h₃⟩ := completes_fenc_stages hc
    exact ((ChecksumOfFrame.of_fsub h₁).fflat h₂).frle h₃

/-- Settles O56: taking a word and a fault record write none of PHASE, LEN, SUM and FRAME. -/
theorem stepKeepsTheChecksumOfTheFrame : Obligations.StepKeepsTheChecksumOfTheFrame := by
  intro s t hs h
  exact step_keeps h hs (fun _ hs => hs) (fun _ _ _ _ hu => hu) fun _ _ _ _ _ _ hu hc => hu.completes hc

/-! ### Byte 0 -/

/-- Outside IDLE byte 0 is the magic constant (10_state.md R35 item 2). -/
def MagicOfFrame (s : State) : Prop := s.phase ≠ .idle → readByte s.frame 0 = 0x80

/-- Settles O57: FINIT writes the magic constant and no other operation, an FPLACE on byte 0 aside, changes byte 0; in IDLE only FINIT
completes. -/
theorem magicStaysUnlessPlacedUpon : Obligations.MagicStaysUnlessPlacedUpon := by
  intro s t W rest hW h hnot hs
  refine step_keeps (P := MagicOfFrame) h hs (fun _ hs => hs) (fun _ _ _ _ hu => hu) fun W' rest' i hW' hd _ hu hc => ?_
  obtain ⟨rfl, rfl⟩ := List.cons.inj (hW.symm.trans hW')
  by_cases hf : ∃ len ft aid, i = .finit len ft aid
  · obtain ⟨len, ft, aid, rfl⟩ := hf
    cases hc
    exact fun _ => readByte_initFrame_zero len ft aid
  · have hidle : (s.setIssued rest).phase ≠ .idle := fun hp => hf (completes_idle hc hp)
    have hkeep : readByte t.frame 0 = readByte (s.setIssued rest).frame 0 := by
      refine completes_byteZero hc (fun len ft aid hi => hf ⟨len, ft, aid, hi⟩) fun toff w so val hi => ?_
      exact hnot toff w so val (hi ▸ hd)
    exact fun _ => hkeep.trans (hu hidle)

end Sys2Proof.Machine
end

section
/-! The memory family (20_memory.md): the frame's bits and what may clear one, the substitution table, the bit sequence of the current
frame over a step, and the agreement of two blocks on the current encode. -/

namespace Sys2Proof

/-! ### The substitution table -/

theorem Table.ofPerm_toNat (p : Equiv.Perm (Fin 254)) (i : BitVec 6) :
    (Table.ofPerm p i).toNat = (p ⟨i.toNat, Nat.lt_trans i.isLt (by decide)⟩).val + 1 := by
  rw [Table.ofPerm, BitVec.toNat_ofNat, Nat.mod_eq_of_lt (by omega)]

/-- The model's form of the table meets 20_memory.md R56 whatever the permutation. -/
theorem Table.ofPerm_admissible (p : Equiv.Perm (Fin 254)) : (Table.ofPerm p).Admissible := by
  constructor
  · intro i j h
    have hval := congrArg BitVec.toNat h
    rw [Table.ofPerm_toNat, Table.ofPerm_toNat, Nat.add_right_cancel_iff] at hval
    exact BitVec.eq_of_toNat_eq (Fin.mk.inj (p.injective (Fin.ext hval)))
  · intro i
    refine ⟨Machine.ofPerm_ne_zero p i, fun h => ?_⟩
    have hcode : _ + 1 = 255 := (Table.ofPerm_toNat p i).symm.trans (congrArg BitVec.toNat h)
    omega

/-- Settles O29: the open table has the model's form. -/
theorem substitutionTableIsAdmissible : Obligations.SubstitutionTableIsAdmissible :=
  Table.ofPerm_admissible Config.substPerm

/-- The place of a code among the 254 admissible ones. -/
def codePlace (b : Byte) : Fin 254 := Fin.ofNat 254 (b.toNat - 1)

theorem codePlace_val {b : Byte} (h0 : b ≠ 0x00) (hF : b ≠ 0xFF) : (codePlace b).val + 1 = b.toNat := by
  have h0' : b.toNat ≠ 0 := fun h => h0 (BitVec.eq_of_toNat_eq h)
  have hF' : b.toNat ≠ 255 := fun h => hF (BitVec.eq_of_toNat_eq h)
  have := b.isLt
  simp only [codePlace, Fin.val_ofNat]
  omega

/-- The places of an admissible table's codes are distinct on the domain 0 to 63, so a permutation of the 254 codes extends them. -/
theorem Table.admissible_is_ofPerm {T : Table} (hT : T.Admissible) : ∃ p : Equiv.Perm (Fin 254), Table.ofPerm p = T := by
  obtain ⟨hinj, hcodes⟩ := hT
  have hplace (i : BitVec 6) : (codePlace (T i)).val + 1 = (T i).toNat := codePlace_val (hcodes i).1 (hcodes i).2
  have hdistinct : Set.InjOn (fun k : Fin 254 => codePlace (T (BitVec.ofNat 6 k.val))) {k | k.val < 64} := by
    intro k (hk : k.val < 64) l (hl : l.val < 64) h
    have hcode : (T (BitVec.ofNat 6 k.val)).toNat = (T (BitVec.ofNat 6 l.val)).toNat := by
      rw [← hplace, ← hplace]
      exact congrArg (·.val + 1) h
    have hindex := congrArg BitVec.toNat (hinj (BitVec.eq_of_toNat_eq hcode))
    simp only [BitVec.toNat_ofNat] at hindex
    exact Fin.ext (by omega)
  obtain ⟨g, hg⟩ := Set.MapsTo.exists_equiv_extend_of_card_eq (t := Finset.univ) (by simp) (by simp [Set.MapsTo]) hdistinct
  refine ⟨g.trans (Equiv.subtypeUnivEquiv Finset.mem_univ), funext fun i => BitVec.eq_of_toNat_eq ?_⟩
  rw [Table.ofPerm_toNat, ← hplace i, Equiv.trans_apply, Equiv.subtypeUnivEquiv_apply, hg _ i.isLt, BitVec.ofNat_toNat,
    BitVec.setWidth_eq]

/-- Settles O30. -/
theorem noAdmissibleTableIsLeftOut : Obligations.NoAdmissibleTableIsLeftOut := fun _ => Table.admissible_is_ofPerm

namespace Machine

/-! ### The bits of the frame -/

theorem byteBits_getElem? (b : Byte) {k : Nat} (h : k < 8) : (byteBits b)[k]? = some (b.getLsbD k) := by
  simp [byteBits, h]

/-- Bit `k` of bytes in a row is bit `k mod 8` of byte `k div 8` (20_memory.md R51). -/
theorem flatMap_byteBits_getElem? (l : List Byte) (k : Nat) :
    (l.flatMap byteBits)[k]? = l[k / 8]?.map (·.getLsbD (k % 8)) := by
  induction l generalizing k with
  | nil => simp
  | cons b l ih =>
    rw [List.flatMap_cons]
    by_cases hk : k < 8
    · rw [List.getElem?_append_left (by rwa [byteBits_length]), byteBits_getElem? b hk, Nat.div_eq_of_lt hk,
        Nat.mod_eq_of_lt hk]
      rfl
    · rw [List.getElem?_append_right (by rw [byteBits_length]; omega), byteBits_length, ih,
        show k / 8 = (k - 8) / 8 + 1 by omega, List.getElem?_cons_succ, show k % 8 = (k - 8) % 8 by omega]

theorem frameBits_getElem? (f : Frame) {k : Nat} (h : k < 72) :
    (frameBits f)[k]? = some ((readByte f (k / 8)).getLsbD (k % 8)) := by
  have hbyte : k / 8 < 9 := by omega
  rw [frameBits, flatMap_byteBits_getElem?, Vector.getElem?_toList, Vector.getElem?_eq_getElem hbyte, Option.map_some,
    readByte_of_lt hbyte]

/-- The string begins with the bits of byte 0. -/
theorem frameBits_take_eight (f : Frame) : (frameBits f).take 8 = byteBits (readByte f 0) := by
  apply List.ext_getElem?
  intro k
  by_cases hk : k < 8
  · rw [List.getElem?_take_of_lt hk, frameBits_getElem? f (by omega), byteBits_getElem? _ hk, Nat.div_eq_of_lt hk,
      Nat.mod_eq_of_lt hk]
  · simp [hk, byteBits_length]

/-- A sequence that is not empty starts with a 1 (41_frame_encode.md R125). -/
theorem flatten_eq_true_cons {f : Frame} (h : flatten f ≠ []) : ∃ rest, flatten f = true :: rest := by
  obtain ⟨hfirst, _⟩ := (flatten_ends f).resolve_left h
  exact ⟨_, List.eq_cons_of_mem_head? hfirst⟩

/-- Settles O35: the magic byte's bits are the first eight, and its 1 keeps the sequence from being empty. -/
theorem frameBitsAreLeastSignificantFirst : Obligations.FrameBitsAreLeastSignificantFirst := by
  refine ⟨fun f => ⟨frameBits_length f, fun k => frameBits_getElem? f⟩, fun f h => ⟨?_, ?_⟩⟩
  · rw [frameBits_take_eight, h]
    decide
  · exact flatten_eq_true_cons (flatten_ne_nil_of_magicBit (by rw [h]; decide))

/-! ### Placements -/

/-- The frame after one placement (40_frame_build.md R105). -/
def Placement.onto (p : Placement) (f : Frame) : Frame := placeField f p.tb p.toff p.w p.so p.val

/-- The bits the placement sets in byte `j`: its mask in the target byte, none elsewhere. -/
def Placement.maskAt (p : Placement) (j : Nat) : Byte := if j = p.tb.toNat ∧ p.tb.toNat < 9 then p.mask else 0

/-- A placement ORs its mask into its target byte (40_frame_build.md R103). -/
theorem readByte_onto (p : Placement) (f : Frame) (j : Nat) :
    readByte (p.onto f) j = readByte f j ||| p.maskAt j := by
  rw [Placement.onto, readByte_placeField, Placement.maskAt]
  split
  · rename_i hj
    rw [hj.1]
    rfl
  · simp

theorem onto_comm (p q : Placement) (f : Frame) : q.onto (p.onto f) = p.onto (q.onto f) := by
  apply frame_ext
  intro j _
  simp only [readByte_onto]
  rw [BitVec.or_assoc, BitVec.or_comm (p.maskAt j), ← BitVec.or_assoc]

theorem onto_idem (p : Placement) (f : Frame) : p.onto (p.onto f) = p.onto f := by
  apply frame_ext
  intro j _
  simp only [readByte_onto]
  rw [BitVec.or_assoc, BitVec.or_self]

/-- A legal placement in BUILD completes and writes the frame only. -/
theorem exec_fplace_of_build {p : Placement} {s : State} (hp : p.legal = true) (hf : s.fault = .none)
    (hb : s.phase = .build) : exec p.fplace s = .next (s.setFrame (p.onto s.frame)) := by
  rw [exec_eq_runOperation, runOperation_inOrder hf hp (by rw [hb]; rfl)]
  rfl

/-- The frame after placements one after the other. -/
def placeAll : List Placement → Frame → Frame
  | [], f => f
  | p :: ps, f => placeAll ps (p.onto f)

theorem runOps_fplaces {ps : List Placement} {s : State} (hps : ∀ p ∈ ps, p.legal = true) (hf : s.fault = .none)
    (hb : s.phase = .build) : runOps (ps.map Placement.fplace) s = .next (s.setFrame (placeAll ps s.frame)) := by
  induction ps generalizing s with
  | nil => rfl
  | cons p ps ih =>
    obtain ⟨hp, hps⟩ := List.forall_mem_cons.mp hps
    rw [List.map_cons, runOps, exec_fplace_of_build hp hf hb]
    exact ih (s := s.setFrame (p.onto s.frame)) hps hf hb

/-- Substitution changes byte 1 and payload bytes only. -/
theorem substitute_coded_changed {T : Table} {f g : Frame} {len : BitVec 4} {sum : BitVec 16} {j : Nat}
    (h : substitute T f len = .coded g sum) (hj : readByte g j ≠ readByte f j) : j = 1 ∨ (2 ≤ j ∧ j < len.toNat) := by
  by_contra hout
  refine hj (substitute_coded_keeps h (fun h1 => hout (.inl h1)) fun hmem => hout (.inr ?_))
  exact (mem_payload.mp hmem).2

/-- Which completing operation can clear a frame bit, and in which bytes (20_memory.md R55). -/
theorem completes_clears {i : Instr} {s t : State} {j k : Nat} (h : Completes i s t)
    (hs : (readByte s.frame j).getLsbD k = true) (ht : (readByte t.frame j).getLsbD k = false) :
    (∃ len ft aid, i = .finit len ft aid)
      ∨ ((i = .fsub ∨ i = .fenc) ∧ s.phase = .build ∧ (j = 1 ∨ (2 ≤ j ∧ j < s.len.toNat))) := by
  have hchanged : readByte t.frame j ≠ readByte s.frame j := fun heq => by
    rw [heq, hs] at ht
    cases ht
  cases i with
  | finit len ft aid => exact .inl ⟨len, ft, aid, rfl⟩
  | fplace =>
    obtain ⟨_, rfl⟩ := h
    rw [State.setFrame_frame, getLsbD_placeField hs] at ht
    cases ht
  | fsub =>
    obtain ⟨hp, g, sum, hsub, rfl⟩ := h
    exact .inr ⟨.inl rfl, hp, substitute_coded_changed hsub hchanged⟩
  | fflat => obtain ⟨_, rfl⟩ := h; exact absurd rfl hchanged
  | frle => obtain ⟨_, b, rest, _, rfl⟩ := h; exact absurd rfl hchanged
  | fenc =>
    obtain ⟨hp, g, sum, b, rest, hsub, _, rfl⟩ := h
    exact .inr ⟨.inr rfl, hp, substitute_coded_changed hsub hchanged⟩

/-- Settles O26: placements OR their masks into the frame; a block that ignores or traps keeps the frame, so a cleared bit needs an
operation that completes. -/
theorem placementsOrTogether : Obligations.PlacementsOrTogether := by
  refine ⟨fun p q s hp hq hf hb => ⟨?_, ?_⟩, fun i s t j k hlen h hs ht => ?_⟩
  · calc runOps [p.fplace, q.fplace] s
        = .next (s.setFrame (q.onto (p.onto s.frame))) := runOps_fplaces (ps := [p, q]) (by simp [hp, hq]) hf hb
      _ = .next (s.setFrame (p.onto (q.onto s.frame))) := by rw [onto_comm]
      _ = runOps [q.fplace, p.fplace] s := (runOps_fplaces (ps := [q, p]) (by simp [hp, hq]) hf hb).symm
  · calc runOps [p.fplace, p.fplace] s
        = .next (s.setFrame (p.onto (p.onto s.frame))) := runOps_fplaces (ps := [p, p]) (by simp [hp]) hf hb
      _ = .next (s.setFrame (p.onto s.frame)) := by rw [onto_idem]
      _ = runOps [p.fplace] s := (runOps_fplaces (ps := [p]) (by simp [hp]) hf hb).symm
  · rcases exec_cases h with ⟨_, rfl⟩ | ⟨_, c, info, _, rfl, _⟩ | ⟨_, _, hc⟩
    · simp [hs] at ht
    · simp [hs] at ht
    · rcases completes_clears hc hs ht with hfinit | ⟨hi, hp, hj⟩
      · exact .inl hfinit
      · have hlen' : s.len.toNat = 6 ∨ s.len.toNat = 9 :=
          (hlen (by simp [hp])).imp (congrArg BitVec.toNat) (congrArg BitVec.toNat)
        exact .inr ⟨hi, by omega, by omega⟩

/-! ### The bit sequence of the current frame -/

theorem BitsOfFrame.fflat {s t : State} (hc : Completes .fflat s t) : BitsOfFrame t := by
  obtain ⟨_, rfl⟩ := hc
  exact fun _ => bitSequence_of_filled ((flatten_length_le s.frame).trans (by decide)) rfl rfl

theorem BitsOfFrame.frle {s t : State} (h : BitsOfFrame s) (hc : Completes .frle s t) : BitsOfFrame t := by
  obtain ⟨hp, b, rest, _, rfl⟩ := hc
  exact fun _ => h (.inl hp)

/-- Every operation that completes keeps the clause: FINIT, FPLACE and FSUB end in BUILD or CODED, where it says nothing. -/
theorem BitsOfFrame.completes {i : Instr} {s t : State} (h : BitsOfFrame s) (hc : Completes i s t) : BitsOfFrame t := by
  cases i with
  | finit => cases hc; simp [BitsOfFrame]
  | fplace => obtain ⟨hp, rfl⟩ := hc; simp [BitsOfFrame, hp]
  | fsub => obtain ⟨_, g, sum, _, rfl⟩ := hc; simp [BitsOfFrame]
  | fflat => exact .fflat hc
  | frle => exact h.frle hc
  | fenc =>
    obtain ⟨_, s₂, _, h₂, h₃⟩ := completes_fenc_stages hc
    exact (BitsOfFrame.fflat h₂).frle h₃

/-- Settles O55: taking a word and a fault record write none of PHASE, FRAME, BITS and BITLEN. -/
theorem stepKeepsTheBitsThoseOfTheFrame : Obligations.StepKeepsTheBitsThoseOfTheFrame := by
  intro s t hs h
  exact step_keeps h hs (fun _ hs => hs) (fun _ _ _ _ hu => hu) fun _ _ _ _ _ _ hu hc => hu.completes hc

/-! ### Two blocks that agree on the current encode -/

/-- Both outcomes are next states, and those agree on the current encode. -/
def SameNextEncode (r r' : Result) : Prop := ∃ s t, r = .next s ∧ r' = .next t ∧ SameCurrentEncode s t

section Agreement

variable {s t : State}

theorem SameCurrentEncode.next (h : SameCurrentEncode s t) : SameNextEncode (.next s) (.next t) := ⟨s, t, rfl, rfl, h⟩

/-- The same cause recorded in both keeps them alike; FINFO is not compared. -/
theorem SameCurrentEncode.raise (h : SameCurrentEncode s t) (c : Cause) (info info' : Word) :
    SameNextEncode (raise c info s) (raise c info' t) := by
  obtain ⟨hframe, hlen, hphase, _, hrest⟩ := h
  exact SameCurrentEncode.next ⟨hframe, hlen, hphase, rfl, hrest⟩

theorem SameCurrentEncode.finitEffect (h : SameCurrentEncode s t) (len : BitVec 4) (ft : BitVec 3) (aid : Byte) :
    SameNextEncode (finitEffect len ft aid s) (finitEffect len ft aid t) := by
  obtain ⟨_, _, _, hfault, _⟩ := h
  exact SameCurrentEncode.next ⟨rfl, rfl, rfl, hfault, nofun, nofun, nofun⟩

theorem SameCurrentEncode.fplaceEffect (h : SameCurrentEncode s t) (tb : BitVec 4) (toff : BitVec 3) (w : BitVec 4)
    (so : BitVec 3) (val : Byte) :
    SameNextEncode (fplaceEffect tb toff w so val s) (fplaceEffect tb toff w so val t) := by
  obtain ⟨hframe, hrest⟩ := h
  exact SameCurrentEncode.next ⟨by simp [hframe], hrest⟩

/-- FSUB answers from FRAME and LEN alone. -/
theorem SameCurrentEncode.fsubEffect (h : SameCurrentEncode s t) (T : Table) :
    SameNextEncode (fsubEffect T s) (fsubEffect T t) := by
  obtain ⟨hframe, hlen, _, hfault, _⟩ := id h
  unfold Machine.fsubEffect
  rw [hframe, hlen]
  cases substitute T t.frame t.len with
  | outside i b => exact h.raise _ _ _
  | coded g sum => exact SameCurrentEncode.next ⟨rfl, hlen, rfl, hfault, fun _ => rfl, nofun, nofun⟩

theorem SameCurrentEncode.fflatEffect (h : SameCurrentEncode s t) (hp : s.phase = .coded) :
    SameNextEncode (fflatEffect s) (fflatEffect t) := by
  obtain ⟨hframe, hlen, _, hfault, hsum, _⟩ := h
  exact SameCurrentEncode.next ⟨hframe, hlen, rfl, hfault, fun _ => hsum (.inl hp), fun _ => by simp [hframe], nofun⟩

/-- FRLE answers from the bit sequence, which agrees in FLAT. -/
theorem SameCurrentEncode.frleEffect (h : SameCurrentEncode s t) (hp : s.phase = .flat) :
    SameNextEncode (frleEffect s) (frleEffect t) := by
  obtain ⟨hframe, hlen, _, hfault, hsum, hseq, _⟩ := id h
  obtain ⟨hbits, hbitlen⟩ := hseq (.inl hp)
  unfold Machine.frleEffect
  rw [bitSequence_congr hbits hbitlen]
  cases rle t.bitSequence with
  | none => exact h.raise _ _ _
  | some out =>
    exact SameCurrentEncode.next ⟨hframe, hlen, rfl, hfault, fun _ => hsum (.inr (.inl hp)), fun _ => ⟨hbits, hbitlen⟩,
      fun _ => ⟨rfl, rfl⟩⟩

/-- FENC answers from FRAME and LEN alone (42_run_length.md R146). -/
theorem SameCurrentEncode.fencEffect (h : SameCurrentEncode s t) (T : Table) :
    SameNextEncode (fencEffect T s) (fencEffect T t) := by
  obtain ⟨hframe, hlen, _, hfault, _⟩ := id h
  unfold Machine.fencEffect
  rw [hframe, hlen]
  cases encodeFrame T t.frame t.len with
  | outside i b => exact h.raise _ _ _
  | empty => exact h.raise _ _ _
  | complete g sum seq out =>
    exact SameCurrentEncode.next ⟨rfl, hlen, rfl, hfault, fun _ => rfl, fun _ => ⟨rfl, rfl⟩, fun _ => ⟨rfl, rfl⟩⟩

/-- In order, an operation reads only what the two blocks agree on in its phase. -/
theorem SameCurrentEncode.effectOf (h : SameCurrentEncode s t) {i : Instr} (ho : inOrder i s.phase = true) :
    SameNextEncode (effectOf i s) (effectOf i t) := by
  rw [inOrder_iff_phaseAfter] at ho
  cases i with
  | finit len ft aid => exact h.finitEffect len ft aid
  | fplace tb toff w so val => exact h.fplaceEffect tb toff w so val
  | fsub => exact h.fsubEffect _
  | fflat => exact h.fflatEffect (by simpa [phaseAfter] using ho)
  | frle => exact h.frleEffect (by simpa [phaseAfter] using ho)
  | fenc => exact h.fencEffect _

/-- The checks of 60_exceptions.md R186 look at FAULT and PHASE, on which the blocks agree. -/
theorem SameCurrentEncode.exec (h : SameCurrentEncode s t) (i : Instr) : SameNextEncode (exec i s) (exec i t) := by
  obtain ⟨_, _, hphase, hfault, _⟩ := id h
  rw [exec_eq_runOperation, exec_eq_runOperation]
  rcases runOperation_cases i (Machine.effectOf i) s with ⟨hf, hs⟩ | ⟨hf, hw, hs⟩ | ⟨hf, hw, ho, hs⟩ | ⟨hf, hw, ho, hs⟩ <;>
    rw [hs]
  · rw [runOperation_halted (hfault ▸ hf)]
    exact h.next
  · rw [runOperation_illegal (hfault ▸ hf) hw]
    exact h.raise _ _ _
  · rw [runOperation_outOfOrder (hfault ▸ hf) hw (hphase ▸ ho)]
    exact h.raise _ _ _
  · rw [runOperation_inOrder (hfault ▸ hf) hw (hphase ▸ ho)]
    exact h.effectOf ho

theorem SameCurrentEncode.reservedWord (h : SameCurrentEncode s t) (W : Word) :
    SameNextEncode (reservedWord W s) (reservedWord W t) := by
  obtain ⟨_, _, _, hfault, _⟩ := id h
  by_cases hf : s.fault = .none
  · rw [reservedWord_raises hf, reservedWord_raises (hfault ▸ hf)]
    exact h.raise _ _ _
  · rw [reservedWord_halted hf, reservedWord_halted (hfault ▸ hf)]
    exact h.next

theorem SameCurrentEncode.issueWord (h : SameCurrentEncode s t) (W : Word) :
    SameNextEncode (issueWord W s) (issueWord W t) := by
  unfold Machine.issueWord
  cases decode W with
  | operation i => exact h.exec i
  | reserved why => exact h.reservedWord W

end Agreement

/-- Settles O59: the decoder looks at no state, and every check and effect reads only registers the blocks agree on. -/
theorem everyWordKeepsTheCurrentEncodeTheSame : Obligations.EveryWordKeepsTheCurrentEncodeTheSame := by
  intro W s t s' t' h hs ht
  obtain ⟨s₁, t₁, hs₁, ht₁, h₁⟩ := h.issueWord W
  obtain rfl := Host.Outcome.next.inj (hs.symm.trans hs₁)
  obtain rfl := Host.Outcome.next.inj (ht.symm.trans ht₁)
  exact h₁

end Machine

end Sys2Proof
end

section
/-! The encoding family (30_encoding.md): the two directions of decode and encode, the match and mask table, the reserved words and
the number of legal words. -/

namespace Sys2Proof

/-! ### A word is its fields -/

/-- Two words alike in a field and in the field above it are alike in the two together. -/
theorem extractLsb'_eq_of_adjacent {V W : Word} {lo n k : Nat} (hlow : V.extractLsb' lo n = W.extractLsb' lo n)
    (hhigh : V.extractLsb' (lo + n) k = W.extractLsb' (lo + n) k) :
    V.extractLsb' lo (k + n) = W.extractLsb' lo (k + n) := by
  rw [← BitVec.extractLsb'_append_extractLsb'_eq_extractLsb' rfl,
    ← BitVec.extractLsb'_append_extractLsb'_eq_extractLsb' rfl, hlow, hhigh]

theorem zeroBitsD_iff (W : Word) : zeroBitsD W = true ↔ W.extractLsb' 23 1 = 0 ∧ W.extractLsb' 8 12 = 0 := by
  simp [zeroBitsD]

theorem zeroBitsP_iff (W : Word) :
    zeroBitsP W = true ↔ W.extractLsb' 23 1 = 0 ∧ W.extractLsb' 15 1 = 0 ∧ W.extractLsb' 8 4 = 0 := by
  simp [zeroBitsP, and_assoc]

theorem zeroBitsN_iff (W : Word) : zeroBitsN W = true ↔ W.extractLsb' 0 28 = 0 := by
  simp [zeroBitsN]

/-- Format D has no bit outside its fields (30_encoding.md R72). -/
theorem eq_of_fieldsD {V W : Word} (op : opField V = opField W) (len : lenField V = lenField W) (ft : ftField V = ftField W)
    (aid : aidField V = aidField W) (hV : zeroBitsD V = true) (hW : zeroBitsD W = true) : V = W := by
  obtain ⟨hV23, hV8⟩ := (zeroBitsD_iff V).mp hV
  obtain ⟨hW23, hW8⟩ := (zeroBitsD_iff W).mp hW
  have h20 := extractLsb'_eq_of_adjacent aid (hV8.trans hW8.symm)
  have h24 := extractLsb'_eq_of_adjacent (extractLsb'_eq_of_adjacent h20 ft) (hV23.trans hW23.symm)
  simpa using extractLsb'_eq_of_adjacent (extractLsb'_eq_of_adjacent h24 len) op

/-- Format P has no bit outside its fields (30_encoding.md R73). -/
theorem eq_of_fieldsP {V W : Word} (op : opField V = opField W) (tb : tbField V = tbField W) (toff : toField V = toField W)
    (w : wField V = wField W) (so : soField V = soField W) (val : valField V = valField W)
    (hV : zeroBitsP V = true) (hW : zeroBitsP W = true) : V = W := by
  obtain ⟨hV23, hV15, hV8⟩ := (zeroBitsP_iff V).mp hV
  obtain ⟨hW23, hW15, hW8⟩ := (zeroBitsP_iff W).mp hW
  have h12 := extractLsb'_eq_of_adjacent val (hV8.trans hW8.symm)
  have h16 := extractLsb'_eq_of_adjacent (extractLsb'_eq_of_adjacent h12 so) (hV15.trans hW15.symm)
  have h23 := extractLsb'_eq_of_adjacent (extractLsb'_eq_of_adjacent h16 w) toff
  have h24 := extractLsb'_eq_of_adjacent h23 (hV23.trans hW23.symm)
  simpa using extractLsb'_eq_of_adjacent (extractLsb'_eq_of_adjacent h24 tb) op

/-- Format N has no bit outside the opcode and the must-be-zero bits (30_encoding.md R74). -/
theorem eq_of_fieldsN {V W : Word} (op : opField V = opField W) (hV : zeroBitsN V = true) (hW : zeroBitsN W = true) :
    V = W := by
  have h28 := ((zeroBitsN_iff V).mp hV).trans ((zeroBitsN_iff W).mp hW).symm
  simpa using extractLsb'_eq_of_adjacent h28 op

theorem encode_finit_fields {W : Word} (op : opField W = 1) (hz : zeroBitsD W = true) :
    encode (.finit (lenField W) (ftField W) (aidField W)) = W :=
  eq_of_fieldsD (by simp [op]) (by simp) (by simp) (by simp) (by simp) hz

theorem encode_fplace_fields {W : Word} (op : opField W = 2) (hz : zeroBitsP W = true) :
    encode (.fplace (tbField W) (toField W) (wField W) (soField W) (valField W)) = W :=
  eq_of_fieldsP (by simp [op]) (by simp) (by simp) (by simp) (by simp) (by simp) (by simp) hz

/-! ### The decoder, opcode by opcode (30_encoding.md R82) -/

section Opcode

variable {W : Word}

theorem decode_of_opField_one (h : opField W = 1) : decode W = decodeFinit W := by simp [decode, h]
theorem decode_of_opField_two (h : opField W = 2) : decode W = decodeFplace W := by simp [decode, h]
theorem decode_of_opField_three (h : opField W = 3) : decode W = decodeNoOperand .fsub W := by simp [decode, h]
theorem decode_of_opField_four (h : opField W = 4) : decode W = decodeNoOperand .fflat W := by simp [decode, h]
theorem decode_of_opField_five (h : opField W = 5) : decode W = decodeNoOperand .frle W := by simp [decode, h]
theorem decode_of_opField_six (h : opField W = 6) : decode W = decodeNoOperand .fenc W := by simp [decode, h]

end Opcode

theorem legalLen_iff (len : BitVec 4) : legalLen len = true ↔ len = 6 ∨ len = 9 := by simp [legalLen]

theorem legalTargetByte_iff (tb : BitVec 4) : legalTargetByte tb = true ↔ ¬ 9 ≤ tb.toNat := by
  simp [legalTargetByte, Nat.lt_succ_iff]

theorem legalWidth_iff (w : BitVec 4) : legalWidth w = true ↔ ¬ (w = 0 ∨ 9 ≤ w.toNat) := by
  revert w; decide

/-- The rows of the decoder that answer an operation: `decode_operation_cases` with its converse. -/
theorem decode_eq_operation_iff {W : Word} {i : Instr} :
    decode W = .operation i ↔
      (opField W = 1 ∧ zeroBitsD W = true ∧ legalLen (lenField W) = true
          ∧ i = .finit (lenField W) (ftField W) (aidField W))
        ∨ (opField W = 2 ∧ zeroBitsP W = true ∧ legalTargetByte (tbField W) = true ∧ legalWidth (wField W) = true
            ∧ i = .fplace (tbField W) (toField W) (wField W) (soField W) (valField W))
        ∨ (opField W = 3 ∧ zeroBitsN W = true ∧ i = .fsub)
        ∨ (opField W = 4 ∧ zeroBitsN W = true ∧ i = .fflat)
        ∨ (opField W = 5 ∧ zeroBitsN W = true ∧ i = .frle)
        ∨ (opField W = 6 ∧ zeroBitsN W = true ∧ i = .fenc) := by
  simp only [legalLen_iff, legalTargetByte_iff, legalWidth_iff, not_or, not_le, and_assoc]
  refine ⟨decode_operation_cases, ?_⟩
  rintro (⟨op, hz, hl, rfl⟩ | ⟨op, hz, htb, hw0, hw, rfl⟩ | ⟨op, hz, rfl⟩ | ⟨op, hz, rfl⟩ | ⟨op, hz, rfl⟩ | ⟨op, hz, rfl⟩)
  · rw [decode_of_opField_one op, decodeFinit, if_neg (not_not.mpr hz), if_pos hl]
  · rw [decode_of_opField_two op, decodeFplace, if_neg (not_not.mpr hz), if_neg (not_le.mpr htb),
      if_neg (not_or.mpr ⟨hw0, not_le.mpr hw⟩)]
  · simp [decode_of_opField_three op, decodeNoOperand, hz]
  · simp [decode_of_opField_four op, decodeNoOperand, hz]
  · simp [decode_of_opField_five op, decodeNoOperand, hz]
  · simp [decode_of_opField_six op, decodeNoOperand, hz]

/-! ### Encode and decode -/

/-- The word of any FINIT, legal or not: only the length decides (30_encoding.md R82 step 5). -/
theorem decode_encode_finit (len : BitVec 4) (ft : BitVec 3) (aid : Byte) :
    decode (encode (.finit len ft aid)) =
      if len = 6 ∨ len = 9 then .operation (.finit len ft aid) else .reserved .frameLength := by
  simp [decode_of_opField_one, decodeFinit]

/-- The word of any FPLACE, legal or not: the target byte and then the width decide (30_encoding.md R82 step 5, log 11). -/
theorem decode_encode_fplace (tb : BitVec 4) (toff : BitVec 3) (w : BitVec 4) (so : BitVec 3) (val : Byte) :
    decode (encode (.fplace tb toff w so val)) =
      if 9 ≤ tb.toNat then .reserved .targetByte
      else if w = 0 ∨ 9 ≤ w.toNat then .reserved .width
      else .operation (.fplace tb toff w so val) := by
  simp [decode_of_opField_two, decodeFplace]

/-- Settles O1: each field of the encoded word is read back, and legal operands pass the decoder's checks. -/
theorem decodingAnEncodedOperationGivesItBack : Obligations.DecodingAnEncodedOperationGivesItBack := by
  intro i hi
  cases i with
  | finit len ft aid => rw [decode_encode_finit, if_pos ((legalLen_iff len).mp hi)]
  | fplace tb toff w so val =>
    obtain ⟨htb, hw⟩ := (Bool.and_eq_true ..).mp hi
    rw [decode_encode_fplace, if_neg ((legalTargetByte_iff tb).mp htb), if_neg ((legalWidth_iff w).mp hw)]
  | fsub => decide
  | fflat => decide
  | frle => decide
  | fenc => decide

/-- Settles O2: the fields of a word and its must-be-zero bits are the whole word. -/
theorem encodingADecodedWordGivesItBack : Obligations.EncodingADecodedWordGivesItBack := by
  intro W i h
  rcases decode_eq_operation_iff.mp h with
    ⟨op, hz, hl, rfl⟩ | ⟨op, hz, htb, hw, rfl⟩ | ⟨op, hz, rfl⟩ | ⟨op, hz, rfl⟩ | ⟨op, hz, rfl⟩ | ⟨op, hz, rfl⟩
  · exact ⟨hl, encode_finit_fields op hz⟩
  · exact ⟨by simp [Instr.wellFormed, htb, hw], encode_fplace_fields op hz⟩
  all_goals exact ⟨rfl, eq_of_fieldsN (op ▸ by decide) (by decide) hz⟩

/-- Settles O3, from what the decoder makes of any operand. -/
theorem illegalOperandsEncodeToReservedWords : Obligations.IllegalOperandsEncodeToReservedWords := by
  refine ⟨fun len ft aid h => ?_, fun tb toff w so val h => ?_, fun tb toff w so val htb hw => ?_⟩
  · rw [decode_encode_finit, if_neg h]
  · rw [decode_encode_fplace, if_pos h]
  · rw [decode_encode_fplace, if_neg (by omega), if_pos hw]

/-- Settles O5: the decoder's accessors are the fields of 30_encoding.md R75. -/
theorem operandsAreTheFieldsOfTheWord : Obligations.OperandsAreTheFieldsOfTheWord := by
  refine fun W => ⟨fun len ft aid h => ?_, fun tb toff w so val h => ?_⟩
  · obtain ⟨-, -, -, hi⟩ : opField W = 1 ∧ _ := by simpa using decode_eq_operation_iff.mp h
    exact hi
  · obtain ⟨-, -, -, -, hi⟩ : opField W = 2 ∧ _ := by simpa using decode_eq_operation_iff.mp h
    exact hi

/-! ### The match and mask table (30_encoding.md R76) -/

theorem opField_and (V W : Word) : opField (V &&& W) = opField V &&& opField W := BitVec.extractLsb'_and

/-- Every mask of the table keeps the four opcode bits. -/
theorem opField_mask {r : OpcodeRow} (hr : r ∈ opcodeRows) : opField r.mask = BitVec.allOnes 4 := by
  revert r; decide

theorem opField_of_selects {r : OpcodeRow} {W : Word} (hr : r ∈ opcodeRows) (h : r.selects W = true) :
    opField W = opField r.pattern := by
  rw [← beq_iff_eq.mp h, opField_and, opField_mask hr, BitVec.and_allOnes]

/-- The opcodes of the rows differ, so no word selects two of them. -/
theorem rows_exclusive (W : Word) :
    opcodeRows.Pairwise fun r r' => ¬ (r.selects W = true ∧ r'.selects W = true) := by
  have hops : opcodeRows.Pairwise fun r r' => opField r.pattern ≠ opField r'.pattern := by decide
  refine hops.imp_of_mem fun hr hr' hne h => hne ?_
  rw [← opField_of_selects hr h.1, opField_of_selects hr' h.2]

section Mask

variable {W mask : Word} {lo n : Nat}

theorem extractLsb'_and_kept (h : mask.extractLsb' lo n = BitVec.allOnes n) :
    (W &&& mask).extractLsb' lo n = W.extractLsb' lo n := by
  rw [BitVec.extractLsb'_and, h, BitVec.and_allOnes]

theorem extractLsb'_and_dropped (h : mask.extractLsb' lo n = 0) : (W &&& mask).extractLsb' lo n = 0 := by
  rw [BitVec.extractLsb'_and, h]
  exact BitVec.and_zero

end Mask

theorem and_maskD_iff (W : Word) : W &&& 0xF08FFF00 = 0x10000000 ↔ opField W = 1 ∧ zeroBitsD W = true := by
  have hop : opField (W &&& 0xF08FFF00) = opField W := extractLsb'_and_kept (by decide)
  have hz : zeroBitsD (W &&& 0xF08FFF00) = zeroBitsD W := by
    simp (disch := decide) only [zeroBitsD, extractLsb'_and_kept]
  rw [← hop, ← hz]
  constructor
  · intro h
    rw [h]
    decide
  · rintro ⟨op, hz⟩
    exact eq_of_fieldsD op (extractLsb'_and_dropped (by decide)) (extractLsb'_and_dropped (by decide))
      (extractLsb'_and_dropped (by decide)) hz (by decide)

theorem and_maskP_iff (W : Word) : W &&& 0xF0808F00 = 0x20000000 ↔ opField W = 2 ∧ zeroBitsP W = true := by
  have hop : opField (W &&& 0xF0808F00) = opField W := extractLsb'_and_kept (by decide)
  have hz : zeroBitsP (W &&& 0xF0808F00) = zeroBitsP W := by
    simp (disch := decide) only [zeroBitsP, extractLsb'_and_kept]
  rw [← hop, ← hz]
  constructor
  · intro h
    rw [h]
    decide
  · rintro ⟨op, hz⟩
    exact eq_of_fieldsP op (extractLsb'_and_dropped (by decide)) (extractLsb'_and_dropped (by decide))
      (extractLsb'_and_dropped (by decide)) (extractLsb'_and_dropped (by decide)) (extractLsb'_and_dropped (by decide))
      hz (by decide)

theorem and_maskN_iff {W pattern : Word} (hp : zeroBitsN pattern = true) :
    W &&& 0xFFFFFFFF = pattern ↔ opField W = opField pattern ∧ zeroBitsN W = true := by
  have hmask : W &&& 0xFFFFFFFF = W := BitVec.and_allOnes
  rw [hmask]
  constructor
  · rintro rfl
    exact ⟨rfl, hp⟩
  · rintro ⟨op, hz⟩
    exact eq_of_fieldsN op hz hp

/-- The must-be-zero bits of a format are zero (30_encoding.md R82 step 3). -/
def Format.zeroBits : Format → Word → Bool
  | .D => zeroBitsD
  | .P => zeroBitsP
  | .N => zeroBitsN

/-- A row's match and mask say the opcode and the must-be-zero bits, and no more. -/
theorem selects_iff {r : OpcodeRow} (hr : r ∈ opcodeRows) (W : Word) :
    r.selects W = true ↔ opField W = opField r.pattern ∧ r.format.zeroBits W = true := by
  rw [OpcodeRow.selects, beq_iff_eq]
  simp only [opcodeRows, List.mem_cons, List.not_mem_nil, or_false] at hr
  rcases hr with rfl | rfl | rfl | rfl | rfl | rfl
  · exact and_maskD_iff W
  · exact and_maskP_iff W
  all_goals exact and_maskN_iff (by decide)

/-- A word decodes to a row's operation when it has the row's opcode, its must-be-zero bits and operands in range. -/
theorem decodes_to_row_iff {r : OpcodeRow} (hr : r ∈ opcodeRows) (W : Word) :
    (∃ i, decode W = .operation i ∧ i.mnemonic = r.mnemonic) ↔
      opField W = opField r.pattern ∧ r.format.zeroBits W = true ∧ r.inRange W = true := by
  simp only [opcodeRows, List.mem_cons, List.not_mem_nil, or_false] at hr
  rcases hr with rfl | rfl | rfl | rfl | rfl | rfl <;>
    simp [decode_eq_operation_iff, or_and_right, exists_or, Instr.mnemonic, OpcodeRow.inRange, Format.zeroBits, opField]

/-- Settles O4: match and mask are the opcode and the must-be-zero bits, and the opcodes of the rows differ. -/
theorem matchAndMaskSelectTheDecodedRow : Obligations.MatchAndMaskSelectTheDecodedRow := by
  refine ⟨fun W r hr => ?_, rows_exclusive⟩
  rw [decodes_to_row_iff hr, selects_iff hr, and_assoc]

/-! ### The reserved words (30_encoding.md R77) -/

section Reserved

variable {W : Word}

theorem decodeFinit_reserved_iff :
    (∃ why, decodeFinit W = .reserved why) ↔ ¬ (zeroBitsD W = true ∧ (lenField W = 6 ∨ lenField W = 9)) := by
  unfold decodeFinit
  split_ifs <;> simp_all

theorem decodeFplace_reserved_iff :
    (∃ why, decodeFplace W = .reserved why) ↔
      ¬ zeroBitsP W = true ∨ 9 ≤ (tbField W).toNat ∨ wField W = 0 ∨ 9 ≤ (wField W).toNat := by
  unfold decodeFplace
  split_ifs <;> simp_all

theorem decodeNoOperand_reserved_iff {i : Instr} :
    (∃ why, decodeNoOperand i W = .reserved why) ↔ ¬ zeroBitsN W = true := by
  unfold decodeNoOperand
  split_ifs <;> simp_all

theorem decode_of_opField_other (h : opField W = 0 ∨ 7 ≤ (opField W).toNat) : decode W = .reserved .opcode := by
  have hne : ∀ k ∈ [1, 2, 3, 4, 5, 6], opField W ≠ k := by
    generalize opField W = op at h
    revert op
    decide
  simp_all [decode]

/-- The classes of 30_encoding.md R77, by opcode. -/
theorem decode_reserved_iff :
    (∃ why, decode W = .reserved why) ↔
      opField W = 0 ∨ 7 ≤ (opField W).toNat
        ∨ (opField W = 1 ∧ ¬ (zeroBitsD W = true ∧ (lenField W = 6 ∨ lenField W = 9)))
        ∨ (opField W = 2 ∧ (¬ zeroBitsP W = true ∨ 9 ≤ (tbField W).toNat ∨ wField W = 0 ∨ 9 ≤ (wField W).toNat))
        ∨ ((opField W = 3 ∨ opField W = 4 ∨ opField W = 5 ∨ opField W = 6) ∧ ¬ zeroBitsN W = true) := by
  have opcodes : ∀ op : BitVec 4,
      (op = 0 ∨ 7 ≤ op.toNat) ∨ op = 1 ∨ op = 2 ∨ op = 3 ∨ op = 4 ∨ op = 5 ∨ op = 6 := by decide
  rcases opcodes (opField W) with h | h | h | h | h | h | h
  · exact iff_of_true ⟨_, decode_of_opField_other h⟩ (or_assoc.mp (.inl h))
  · simp [decode_of_opField_one h, decodeFinit_reserved_iff, h]
  · simp [decode_of_opField_two h, decodeFplace_reserved_iff, h]
  · simp [decode_of_opField_three h, decodeNoOperand_reserved_iff, h]
  · simp [decode_of_opField_four h, decodeNoOperand_reserved_iff, h]
  · simp [decode_of_opField_five h, decodeNoOperand_reserved_iff, h]
  · simp [decode_of_opField_six h, decodeNoOperand_reserved_iff, h]

end Reserved

namespace Machine

theorem issueWord_reserved {W : Word} {s : State} {why : Reserved} (h : decode W = .reserved why) :
    issueWord W s = reservedWord W s := by
  rcases issueWord_cases W s with ⟨i, hi, _⟩ | ⟨_, _, hissue⟩
  · exact absurd (hi.symm.trans h) nofun
  · exact hissue

/-- Settles O6: the classes by opcode, the trap of a reserved word, and O1 for FPLACE. -/
theorem reservedWordsAreTheListedClasses : Obligations.ReservedWordsAreTheListedClasses := by
  refine ⟨fun W => ?_, ⟨.opcode, by decide⟩, ⟨.opcode, by decide⟩, fun W s why h hf => ?_,
    fun tb toff w so val htb hw1 hw8 => ?_⟩
  · rw [decode_reserved_iff, zeroBitsD_iff, zeroBitsP_iff, zeroBitsN_iff]
    simp only [not_and_or, not_or, or_assoc]
    rfl
  · rw [issueWord_reserved h, reservedWord_raises hf]
    rfl
  · exact decodingAnEncodedOperationGivesItBack _ (by simp [Instr.wellFormed, legalTargetByte, legalWidth, htb, hw1, hw8])

end Machine

/-! ### The number of legal words (30_encoding.md R82) -/

/-- The legal operands, operation by operation: of FINIT, of FPLACE, and the four operations without operands. -/
abbrev LegalOperands : Type :=
  ({len : BitVec 4 // legalLen len = true} × BitVec 3 × Byte)
    ⊕ ({tb : BitVec 4 // legalTargetByte tb = true} × BitVec 3 × {w : BitVec 4 // legalWidth w = true} × BitVec 3 × Byte)
    ⊕ Fin 4

/-- Legal operands are the well-formed operations, taken apart. -/
def legalOperandsEquiv : LegalOperands ≃ {i : Instr // i.wellFormed = true} where
  toFun
    | .inl (len, ft, aid) => ⟨.finit len ft aid, len.2⟩
    | .inr (.inl (tb, toff, w, so, val)) => ⟨.fplace tb toff w so val, (Bool.and_eq_true ..).mpr ⟨tb.2, w.2⟩⟩
    | .inr (.inr 0) => ⟨.fsub, rfl⟩
    | .inr (.inr 1) => ⟨.fflat, rfl⟩
    | .inr (.inr 2) => ⟨.frle, rfl⟩
    | .inr (.inr 3) => ⟨.fenc, rfl⟩
  invFun
    | ⟨.finit len ft aid, h⟩ => .inl (⟨len, h⟩, ft, aid)
    | ⟨.fplace tb toff w so val, h⟩ =>
      .inr (.inl (⟨tb, Bool.and_elim_left h⟩, toff, ⟨w, Bool.and_elim_right h⟩, so, val))
    | ⟨.fsub, _⟩ => .inr (.inr 0)
    | ⟨.fflat, _⟩ => .inr (.inr 1)
    | ⟨.frle, _⟩ => .inr (.inr 2)
    | ⟨.fenc, _⟩ => .inr (.inr 3)
  left_inv := by
    rintro (_ | _ | k)
    · rfl
    · rfl
    · fin_cases k <;> rfl
  right_inv := by
    rintro ⟨i, _⟩
    cases i <;> rfl

/-- The count of 30_encoding.md R82: 2 * 8 * 256 for FINIT, 9 * 8 * 8 * 8 * 256 for FPLACE, and 4. -/
theorem card_legalOperands : Nat.card LegalOperands = 1183748 := by
  have card_bitVec (n : Nat) : Nat.card (BitVec n) = 2 ^ n := by
    rw [Nat.card_eq_fintype_card, ← FinEnum.card_eq_fintypeCard, FinEnum.card_bitVec]
  have lens : Nat.card {len : BitVec 4 // legalLen len = true} = 2 := by
    rw [Nat.card_eq_fintype_card]
    decide
  have targets : Nat.card {tb : BitVec 4 // legalTargetByte tb = true} = 9 := by
    rw [Nat.card_eq_fintype_card]
    decide
  have widths : Nat.card {w : BitVec 4 // legalWidth w = true} = 8 := by
    rw [Nat.card_eq_fintype_card]
    decide
  simp only [Nat.card_sum, Nat.card_prod, Nat.card_fin, card_bitVec, lens, targets, widths]
  norm_num

/-- A legal word is the word of one well-formed operation, and of no other: both directions of encode and decode. -/
theorem encode_bijective :
    Function.Bijective fun i : {i : Instr // i.wellFormed = true} =>
      (⟨encode i, i, decodingAnEncodedOperationGivesItBack i i.2⟩ : {W : Word // ∃ i, decode W = .operation i}) := by
  constructor
  · intro i j h
    have hdecode := congrArg (fun W => decode W.1) h
    simp only [decodingAnEncodedOperationGivesItBack _ i.2, decodingAnEncodedOperationGivesItBack _ j.2] at hdecode
    exact Subtype.ext (Verdict.operation.inj hdecode)
  · rintro ⟨W, i, h⟩
    obtain ⟨hi, rfl⟩ := encodingADecodedWordGivesItBack W i h
    exact ⟨⟨i, hi⟩, rfl⟩

/-- Settles O8: the legal words are counted by the legal operands. -/
theorem legalWordsNumber1183748 : Obligations.LegalWordsNumber1183748 :=
  (Nat.card_eq_of_bijective _ encode_bijective).symm.trans
    ((Nat.card_congr legalOperandsEquiv).symm.trans card_legalOperands)

end Sys2Proof
end

section
/-! The frame building family (40_frame_build.md): FINIT and the frame it leaves, the source fragment and its placement, the
populated frame as the OR of its placements, and the cut a FINIT makes between encodes. -/

namespace Sys2Proof.Machine

/-! ### Operations one after the other -/

theorem runOps_cons_of_next {i : Instr} {s t : State} (h : exec i s = .next t) (is : List Instr) :
    runOps (i :: is) s = runOps is t := by
  rw [runOps, h]

/-! ### FINIT (R101, R104) -/

/-- The flagsType shifted into place reads back from bits [3:1] and exceeds no value of those bits (40_frame_build.md R101). -/
theorem flagsByte_field (ft : BitVec 3) :
    (ft.setWidth 8 <<< 1).extractLsb' 1 3 = ft ∧ (ft.setWidth 8 <<< 1).toNat ≤ 0x0E := by
  revert ft
  decide

/-- The frame of 40_frame_build.md R101, byte by byte, whatever the length. -/
theorem initFrame_eq (len : BitVec 4) (ft : BitVec 3) (aid : Byte) :
    initFrame len ft aid =
      (#v[0x80, 0, ft.setWidth 8 <<< 1, 0, 0, 0, 0, if len = 9 ∧ aid ≠ 0 then aid else 0, 0] : Frame) := by
  unfold initFrame
  split <;> rfl

theorem readByte_initFrame_two (len : BitVec 4) (ft : BitVec 3) (aid : Byte) :
    readByte (initFrame len ft aid) 2 = ft.setWidth 8 <<< 1 := by
  rw [initFrame_eq]
  rfl

/-- Settles O21. -/
theorem initFrameBytes : Obligations.InitFrameBytes := by
  intro len ft aid _
  rw [readByte_initFrame_two]
  exact ⟨initFrame_eq len ft aid, flagsByte_field ft⟩

/-- A legal FINIT completes in every phase of a block that is not halted (40_frame_build.md R104). -/
theorem exec_finit_of_legal {len : BitVec 4} (hlen : len = 6 ∨ len = 9) (ft : BitVec 3) (aid : Byte) {s : State}
    (hf : s.fault = .none) :
    exec (.finit len ft aid) s = .next (((s.setFrame (initFrame len ft aid)).setLen len).setPhase .build) := by
  have hw : (Instr.finit len ft aid).wellFormed = true := (legalLen_iff len).mpr hlen
  have ho : inOrder (.finit len ft aid) s.phase = true := by rw [inOrder_iff_phaseAfter]; rfl
  rw [exec_eq_runOperation, runOperation_inOrder hf hw ho]
  rfl

/-- Settles O22: a second FINIT overwrites the three registers a first one wrote. -/
theorem finitInitialisesTheFrame : Obligations.FinitInitialisesTheFrame := by
  intro len ft aid s hlen hf
  rw [← initFrame_eq]
  refine ⟨exec_finit_of_legal hlen ft aid hf, fun len' ft' aid' hlen' => ?_⟩
  rw [runOps_cons_of_next (exec_finit_of_legal hlen' ft' aid' hf), exec_finit_of_legal hlen ft aid hf]
  exact runOps_cons_of_next (exec_finit_of_legal hlen ft aid (by exact hf)) []

/-! ### The fragment and its placement (R102, R103, R105) -/

theorem lowOnes_toNat {w : BitVec 4} (h : w.toNat ≤ 8) : (lowOnes w).toNat = 2 ^ w.toNat - 1 := by
  have hpow : 2 ^ w.toNat ≤ 2 ^ 8 := Nat.pow_le_pow_right (by decide) h
  rw [lowOnes, BitVec.toNat_ofNat, Nat.mod_eq_of_lt (by omega)]

/-- The fragment as an integer: the low `w` bits of the shifted value. -/
theorem extract_toNat (val : Byte) (so : BitVec 3) {w : BitVec 4} (h : w.toNat ≤ 8) :
    (extract val so w).toNat = (val.toNat >>> so.toNat) % 2 ^ w.toNat := by
  rw [extract, BitVec.toNat_and, BitVec.toNat_ushiftRight, lowOnes_toNat h, Nat.and_two_pow_sub_one_eq_mod]

/-- A source field that reaches bit 7 keeps the whole shifted value. -/
theorem extract_eq_ushiftRight (val : Byte) {so : BitVec 3} {w : BitVec 4} (hw : w.toNat ≤ 8)
    (h : 8 ≤ so.toNat + w.toNat) : extract val so w = val >>> so.toNat := by
  have hval : (val >>> so.toNat).toNat < 2 ^ (8 - so.toNat) := val.toNat_ushiftRight_lt so.toNat (by omega)
  have hpow : 2 ^ (8 - so.toNat) ≤ 2 ^ w.toNat := Nat.pow_le_pow_right (by decide) (by omega)
  apply BitVec.eq_of_toNat_eq
  rw [extract_toNat val so hw, ← BitVec.toNat_ushiftRight, Nat.mod_eq_of_lt (hval.trans_le hpow)]

/-- Settles O23: the mask is the remainder modulo a power of two, as the slice is. -/
theorem extractTakesTheSourceField : Obligations.ExtractTakesTheSourceField := by
  intro val so w _ hw
  refine ⟨?_, fun _ => ?_, fun h => ?_⟩
  · rw [extract_toNat val so hw, Nat.one_shiftLeft, Nat.and_two_pow_sub_one_eq_mod]
  · rw [extract_toNat val so hw, BitVec.extractLsb'_toNat]
  · rw [extract_eq_ushiftRight val hw h.le, BitVec.extractLsb'_toNat, ← BitVec.toNat_ushiftRight,
      Nat.mod_eq_of_lt (val.toNat_ushiftRight_lt so.toNat (by omega))]

theorem place_toNat (byte : Byte) (toff : BitVec 3) (frag : Byte) :
    (place byte toff frag).toNat = byte.toNat ||| ((frag.toNat <<< toff.toNat) % 256) := by
  rw [place, BitVec.toNat_or, BitVec.toNat_shiftLeft]

/-- A fragment of `w` bits shifted by `n` stays within a byte when `n + w <= 8`. -/
theorem shiftLeft_mod_byte {a n w : Nat} (ha : a < 2 ^ w) (h : n + w ≤ 8) : (a <<< n) % 256 = a <<< n := by
  apply Nat.mod_eq_of_lt
  calc a <<< n = a * 2 ^ n := Nat.shiftLeft_eq a n
    _ < 2 ^ w * 2 ^ n := Nat.mul_lt_mul_of_pos_right ha (Nat.two_pow_pos n)
    _ = 2 ^ (w + n) := (Nat.pow_add 2 w n).symm
    _ ≤ 2 ^ 8 := Nat.pow_le_pow_right (by decide) (by omega)

/-- Settles O24: the fragment with only its top bit set is the one that the shift pushes out first. -/
theorem placeOrsTheShiftedFragment : Obligations.PlaceOrsTheShiftedFragment := by
  refine ⟨place_toNat, fun toff w h1 h8 => ⟨fun h => ?_, fun h frag hfrag => shiftLeft_mod_byte hfrag h⟩⟩
  have htop : 2 ^ (w.toNat - 1) < 2 ^ w.toNat := Nat.pow_lt_pow_right (by decide) (by omega)
  have hbyte : 2 ^ w.toNat ≤ 2 ^ 8 := Nat.pow_le_pow_right (by decide) h8
  have hval : (BitVec.ofNat 8 (2 ^ (w.toNat - 1))).toNat = 2 ^ (w.toNat - 1) := by
    rw [BitVec.toNat_ofNat, Nat.mod_eq_of_lt (htop.trans_le hbyte)]
  have hkept := h (BitVec.ofNat 8 (2 ^ (w.toNat - 1))) (by rw [hval]; exact htop)
  rw [hval, Nat.shiftLeft_eq, ← Nat.pow_add] at hkept
  have hlt : 2 ^ (w.toNat - 1 + toff.toNat) < 2 ^ 8 := by
    rw [← hkept]
    exact Nat.mod_lt _ (by decide)
  have := (Nat.pow_lt_pow_iff_right (by decide)).mp hlt
  omega

theorem Placement.legal_iff (p : Placement) :
    p.legal = true ↔ p.tb.toNat ≤ 8 ∧ 1 ≤ p.w.toNat ∧ p.w.toNat ≤ 8 := by
  simp [Placement.legal, Placement.fplace, Instr.wellFormed, legalTargetByte, legalWidth]

/-- Settles O25: a legal FPLACE in BUILD is one placement onto the frame. -/
theorem fplacePlacesTheFragment : Obligations.FplacePlacesTheFragment := by
  intro tb toff w so val s htb h1 h8 hf hb
  have hlegal : Placement.legal ⟨tb, toff, w, so, val⟩ = true := (Placement.legal_iff _).mpr ⟨htb, h1, h8⟩
  refine ⟨placeField s.frame tb toff w so val, exec_fplace_of_build hlegal hf hb, ?_, fun j hj => readByte_placeField_ne hj⟩
  rw [readByte_placeField, if_pos ⟨rfl, by omega⟩, place_toNat, extract_toNat val so h8, Nat.one_shiftLeft,
    Nat.and_two_pow_sub_one_eq_mod]

/-! ### The populated frame (R106) -/

theorem target_lt_of_legal {p : Placement} (h : p.legal = true) : p.tb.toNat < 9 :=
  Nat.lt_succ_of_le (p.legal_iff.mp h).1

theorem maskAt_target {p : Placement} (h : p.legal = true) : p.maskAt p.tb.toNat = p.mask :=
  if_pos ⟨rfl, target_lt_of_legal h⟩

theorem maskAt_ne {p : Placement} {j : Nat} (h : p.tb.toNat ≠ j) : p.maskAt j = 0#8 :=
  if_neg fun hj => h hj.1.symm

/-- Each byte after placements is the OR of its value before and of the masks placed in it (40_frame_build.md R106). -/
theorem readByte_placeAll {ps : List Placement} (hps : ∀ p ∈ ps, p.legal = true) (f : Frame) (j : Nat) :
    readByte (placeAll ps f) j =
      ((ps.filter fun p => p.tb.toNat == j).map Placement.mask).foldl (· ||| ·) (readByte f j) := by
  induction ps generalizing f with
  | nil => rfl
  | cons p ps ih =>
    obtain ⟨hp, hps⟩ := List.forall_mem_cons.mp hps
    rw [placeAll, ih hps, readByte_onto]
    by_cases hj : p.tb.toNat = j
    · subst hj
      rw [maskAt_target hp, List.filter_cons_of_pos (by simp)]
      rfl
    · rw [maskAt_ne hj, BitVec.or_zero, List.filter_cons_of_neg (by simp [hj])]

/-- The order of the placements does not matter (40_frame_build.md R106). -/
theorem placeAll_perm {ps qs : List Placement} (h : qs.Perm ps) (f : Frame) : placeAll qs f = placeAll ps f := by
  induction h generalizing f with
  | nil => rfl
  | cons p _ ih => exact ih (p.onto f)
  | swap p q l => exact congrArg (placeAll l) (onto_comm q p f)
  | trans _ _ ih₁ ih₂ => exact (ih₁ f).trans (ih₂ f)

/-- FINIT and legal placements complete on a block that is not halted. -/
theorem runOps_populate {len : BitVec 4} {ft : BitVec 3} {aid : Byte} {ps : List Placement} {s : State}
    (hlen : len = 6 ∨ len = 9) (hps : ∀ p ∈ ps, p.legal = true) (hf : s.fault = .none) :
    runOps (.finit len ft aid :: ps.map Placement.fplace) s =
      .next { s with frame := placeAll ps (initFrame len ft aid), len := len, phase := .build } := by
  rw [runOps_cons_of_next (exec_finit_of_legal hlen ft aid hf)]
  exact runOps_fplaces hps hf rfl

/-- Settles O27. -/
theorem populatedFrameIsTheOrOfItsPlacements : Obligations.PopulatedFrameIsTheOrOfItsPlacements := by
  intro len ft aid ps s hlen hps hf
  refine ⟨placeAll ps (initFrame len ft aid), runOps_populate hlen hps hf, fun i _ => readByte_placeAll hps _ i,
    fun qs hqs => ?_⟩
  rw [← placeAll_perm hqs]
  exact runOps_populate hlen (fun q hq => hps q (hqs.mem_iff.mp hq)) hf

/-- Bits that no placement sets keep their value: `m` names the bits of byte `j` in question. -/
theorem readByte_placeAll_and {ps : List Placement} {j : Nat} {m : Byte}
    (h : ∀ p ∈ ps, p.tb.toNat = j → p.mask &&& m = 0#8) (f : Frame) :
    readByte (placeAll ps f) j &&& m = readByte f j &&& m := by
  induction ps generalizing f with
  | nil => rfl
  | cons p ps ih =>
    obtain ⟨hp, hps⟩ := List.forall_mem_cons.mp h
    have hmask : p.maskAt j &&& m = 0#8 := by
      unfold Placement.maskAt
      split
      · rename_i hj
        exact hp hj.1.symm
      · exact BitVec.zero_and
    rw [placeAll, ih hps, readByte_onto, BitVec.and_or_distrib_right, hmask, BitVec.or_zero]

/-- Bits [3:1] of a byte are those its mask 0x0E keeps. -/
theorem extractLsb'_and_flagsMask (b : Byte) : (b &&& 0x0E#8).extractLsb' 1 3 = b.extractLsb' 1 3 := by
  rw [BitVec.extractLsb'_and, show (0x0E#8).extractLsb' 1 3 = BitVec.allOnes 3 from rfl, BitVec.and_allOnes]

/-- A value of six bits shifted up by at most two comes back down unchanged. -/
theorem shiftLeft_ushiftRight_sixBits {b : Byte} {n : Nat} (hb : b.toNat < 2 ^ 6) (hn : n ≤ 2) : (b <<< n) >>> n = b := by
  apply BitVec.eq_of_toNat_eq
  rw [BitVec.toNat_ushiftRight, BitVec.toNat_shiftLeft, shiftLeft_mod_byte hb (by omega), Nat.shiftLeft_shiftRight]

/-- A byte whose six bits at `n` are those of `c` shifted there reads back as `c`. -/
theorem sixBits_readBack {b c : Byte} {n : Nat} (hn : n ≤ 2) (hc : c.toNat < 2 ^ 6)
    (h : b &&& (0x3F#8 <<< n) = (c <<< n) &&& (0x3F#8 <<< n)) : (b >>> n) &&& 0x3F#8 = c := by
  have hwindow : (0x3F#8 <<< n) >>> n = 0x3F#8 := shiftLeft_ushiftRight_sixBits (by decide) hn
  calc (b >>> n) &&& 0x3F#8
      = (b &&& (0x3F#8 <<< n)) >>> n := by rw [BitVec.ushiftRight_and_distrib, hwindow]
    _ = ((c <<< n) >>> n) &&& 0x3F#8 := by rw [h, BitVec.ushiftRight_and_distrib, hwindow]
    _ = c &&& 0x3F#8 := by rw [shiftLeft_ushiftRight_sixBits hc hn]
    _ = c := BitVec.eq_of_toNat_eq (by
        rw [BitVec.toNat_and, show (0x3F#8).toNat = 2 ^ 6 - 1 from rfl, Nat.and_two_pow_sub_one_eq_mod, Nat.mod_eq_of_lt hc])

/-- A colour channel takes the value without its two low bits (43_command_variants.md R163). -/
theorem extract_colourChannel (v : Byte) : extract v 2 6 = v >>> 2 :=
  extract_eq_ushiftRight v (so := 2) (w := 6) (by decide) (by decide)

theorem mask_colourChannel (tb : BitVec 4) (toff : BitVec 3) (v : Byte) :
    Placement.mask ⟨tb, toff, 6, 2, v⟩ = (v >>> 2) <<< toff.toNat := by
  simp only [Placement.mask, extract_colourChannel]

/-- A placement whose mask alone sets the bits `m` of its target byte, anywhere among others, determines them. -/
theorem readByte_placeAll_alone {front back : List Placement} {p : Placement} {f : Frame} {m : Byte} (hp : p.legal = true)
    (hf : readByte f p.tb.toNat &&& m = 0#8)
    (h : ∀ q ∈ front ++ back, q.tb.toNat = p.tb.toNat → q.mask &&& m = 0#8) :
    readByte (placeAll (front ++ p :: back) f) p.tb.toNat &&& m = p.mask &&& m := by
  rw [placeAll_perm List.perm_middle, placeAll, readByte_placeAll_and h, readByte_onto, maskAt_target hp,
    BitVec.and_or_distrib_right, hf, BitVec.zero_or]

/-- Settles O28: placements leave the bits they do not set, and a colour channel alone on its bits determines them. -/
theorem populatedFrameKeepsPreambleAndQuantises : Obligations.PopulatedFrameKeepsPreambleAndQuantises := by
  intro len ft aid ps s t hlen hps hf h
  obtain rfl := Host.Outcome.next.inj (h.symm.trans (runOps_populate hlen hps hf))
  refine ⟨fun hzero => ?_, fun hflags => ?_, fun front back tb toff v hsplit htoff hinit halone => ?_⟩
  · have hkept := readByte_placeAll_and (m := BitVec.allOnes 8) (j := 0)
      (fun p hp htb => absurd (BitVec.eq_of_toNat_eq htb) (hzero p hp)) (initFrame len ft aid)
    rwa [BitVec.and_allOnes, BitVec.and_allOnes, readByte_initFrame_zero] at hkept
  · have hkept := readByte_placeAll_and (j := 2) (fun p hp htb => hflags p hp (BitVec.eq_of_toNat_eq htb))
      (initFrame len ft aid)
    rw [← extractLsb'_and_flagsMask, hkept, extractLsb'_and_flagsMask, readByte_initFrame_two]
    exact (flagsByte_field ft).1
  · subst hsplit
    have hv : (v >>> 2).toNat < 2 ^ 6 := v.toNat_ushiftRight_lt 2 (by decide)
    refine sixBits_readBack htoff hv ?_
    rw [← mask_colourChannel tb toff v]
    exact readByte_placeAll_alone (p := ⟨tb, toff, 6, 2, v⟩) (hps _ (by simp)) hinit
      fun q hq htb => halone q hq (BitVec.eq_of_toNat_eq htb)

/-! ### FINIT cuts off what came before (R104, R146) -/

/-- Blocks that agree on the current encode still do after the same operations. -/
theorem SameCurrentEncode.runOps {s t : State} (h : SameCurrentEncode s t) (is : List Instr) :
    SameNextEncode (runOps is s) (runOps is t) := by
  induction is generalizing s t with
  | nil => exact h.next
  | cons i is ih =>
    obtain ⟨s₁, t₁, hs, ht, h₁⟩ := h.exec i
    rw [runOps_cons_of_next hs, runOps_cons_of_next ht]
    exact ih h₁

/-- A legal FINIT, and the same operations after it, leave any two blocks that are not halted alike: FINIT writes FRAME, LEN and
PHASE, and no other register is the current encode's own in BUILD (20_memory.md R63). -/
theorem sameNextEncode_finit_cons {len : BitVec 4} {ft : BitVec 3} {aid : Byte} {s t : State} (hlen : len = 6 ∨ len = 9)
    (hs : s.fault = .none) (ht : t.fault = .none) (is : List Instr) :
    SameNextEncode (runOps (.finit len ft aid :: is) s) (runOps (.finit len ft aid :: is) t) := by
  rw [runOps_cons_of_next (exec_finit_of_legal hlen ft aid hs), runOps_cons_of_next (exec_finit_of_legal hlen ft aid ht)]
  apply SameCurrentEncode.runOps
  exact ⟨rfl, rfl, rfl, hs.trans ht.symm, nofun, nofun, nofun⟩

/-- Settles O48: FINIT makes the two blocks agree, and every operation after it keeps them so. -/
theorem earlierEncodesDoNotLeak : Obligations.EarlierEncodesDoNotLeak := by
  intro len ft aid is s t s' t' hlen hs ht hs' ht'
  obtain ⟨s₁, t₁, hs₁, ht₁, h⟩ := sameNextEncode_finit_cons hlen hs ht is
  obtain rfl := Host.Outcome.next.inj (hs'.symm.trans hs₁)
  obtain rfl := Host.Outcome.next.inj (ht'.symm.trans ht₁)
  exact h

end Sys2Proof.Machine
end

section
/-! The frame encoding family (41_frame_encode.md): the sum and the checksum, FSUB in BUILD, the flatten as a slice of the frame's bits
with the bounds on its length, FFLAT in CODED. -/

namespace Sys2Proof.Machine

/-! ### The sum and the checksum (R121, R124) -/

theorem checksum_toNat (sum : BitVec 16) : (checksum sum).toNat = (sum.toNat >>> 2) &&& 0x3F := by
  simp only [checksum, chkShift, chkMask, BitVec.toNat_setWidth, BitVec.toNat_and, BitVec.toNat_ushiftRight]
  exact Nat.mod_eq_of_lt (Nat.lt_succ_of_le Nat.and_le_right)

theorem checksum_eq_extractLsb' (sum : BitVec 16) : checksum sum = sum.extractLsb' 2 6 := by
  apply BitVec.eq_of_toNat_eq
  rw [checksum_toNat, BitVec.extractLsb'_toNat]
  exact Nat.and_two_pow_sub_one_eq_mod (sum.toNat >>> 2) 6

/-- An accumulator of 8 bits would give the same checksum (41_frame_encode.md R124). -/
theorem checksum_eq_of_low_byte_eq {a b : BitVec 16} (h : a.setWidth 8 = b.setWidth 8) : checksum a = checksum b := by
  have hlow (c : BitVec 16) : checksum c = (c.setWidth 8).extractLsb' 2 6 := by
    rw [checksum_eq_extractLsb', BitVec.extractLsb'_setWidth_of_le (by decide)]
  rw [hlow, hlow, h]

/-- The domain comparison is the test of the top two bits (41_frame_encode.md R124). -/
theorem substEntries_le_iff_topBits (b : Byte) : 64 ≤ b.toNat ↔ b.extractLsb' 6 2 ≠ 0 := by
  have := b.isLt
  rw [Ne, ← BitVec.toNat_inj, BitVec.extractLsb'_toNat, Nat.shiftRight_eq_div_pow]
  change 64 ≤ b.toNat ↔ ¬ b.toNat / 64 % 4 = 0
  omega

theorem toNat_of_legalLen {len : BitVec 4} (h : len = 6 ∨ len = 9) : len.toNat = 6 ∨ len.toNat = 9 :=
  h.imp (congrArg BitVec.toNat) (congrArg BitVec.toNat)

/-- The payload of a legal length, index by index (20_memory.md R57). -/
theorem payload_eq_range' {len : BitVec 4} (h : len = 6 ∨ len = 9) : payload len = List.range' 2 (len.toNat - 2) := by
  rcases h with rfl | rfl <;> rfl

/-- Settles O33: at most four codes for length 6, seven for length 9. -/
theorem sumNeverWraps : Obligations.SumNeverWraps := by
  refine ⟨fun T f g len sum _ h => ⟨substitute_coded_sum h, substitute_coded_sum_le h, ?_⟩, checksum_eq_extractLsb',
    fun _ _ => checksum_eq_of_low_byte_eq, substEntries_le_iff_topBits⟩
  rintro rfl
  rw [substitute_coded_sum h]
  exact byte_sum_le (payload 6) (readByte g)

/-! ### FSUB (R121, R123) -/

/-- FSUB in BUILD completes when no payload byte is outside the table's domain. -/
theorem exec_fsub_of_build {s : State} (hf : s.fault = .none) (hb : s.phase = .build)
    (hin : firstOutside s.frame s.len = none) :
    ∃ g sum, substitute Config.subst s.frame s.len = .coded g sum
      ∧ exec .fsub s = .next (((s.setFrame g).setSum sum).setPhase .coded) := by
  rw [exec_eq_runOperation, runOperation_inOrder hf rfl (by rw [hb]; rfl)]
  rcases fsubEffect_cases Config.subst s with ⟨k, hk, _⟩ | ⟨_, h⟩
  · rw [hin] at hk
    cases hk
  · exact h

/-- Settles O31: with the payload inside the domain, FSUB writes what `substitute` returns. -/
theorem fsubSubstitutesThePayload : Obligations.FsubSubstitutesThePayload := by
  intro s hf hb hlen hdomain
  have hin : firstOutside s.frame s.len = none := firstOutside_eq_none.mpr fun i hi => by
    obtain ⟨_, h2, hi⟩ := mem_payload.mp hi
    exact hdomain i h2 hi
  obtain ⟨g, sum, hsub, hexec⟩ := exec_fsub_of_build hf hb hin
  obtain ⟨hsum, hg⟩ := substitute_coded hsub
  obtain ⟨hzero, hbeyond⟩ := substitute_coded_outside hsub
  have hlen' := toNat_of_legalLen hlen
  refine ⟨g, sum, hexec, fun i h2 hi => ?_, ?_, ?_, hzero, fun j hj => hbeyond j (by omega) hj⟩
  · rw [hg i, if_neg (by omega), if_pos (mem_payload.mpr ⟨by omega, h2, hi⟩), readTable]
  · rw [hsum, payload_eq_range' hlen]
    rfl
  · rw [hg 1, if_pos rfl, ← checksum_toNat, BitVec.ofNat_toNat, BitVec.setWidth_eq]

/-! ### The flatten as a slice (R125) -/

theorem frameBits_eq_true_iff {f : Frame} {k : Nat} :
    (frameBits f)[k]? = some true ↔ (readByte f (k / 8)).getLsbD (k % 8) = true := by
  by_cases hk : k < 72
  · rw [frameBits_getElem? f hk, Option.some.injEq]
  · rw [List.getElem?_eq_none (by rw [frameBits_length]; omega), readByte_of_ge (by omega)]
    simp

theorem lt_of_frameBits_eq_true {f : Frame} {k : Nat} (h : (frameBits f)[k]? = some true) : k < 72 :=
  frameBits_length f ▸ (List.getElem?_eq_some_iff.mp h).1

/-- The flatten is a slice of the frame's bits that holds every 1, and a 1 stands at both of its ends. -/
theorem flatten_slice (f : Frame) :
    ∃ m, flatten f = ((frameBits f).drop m).take (flatten f).length
      ∧ (∀ k, (frameBits f)[k]? = some true → m ≤ k ∧ k < m + (flatten f).length)
      ∧ (flatten f ≠ [] → (frameBits f)[m]? = some true ∧ (frameBits f)[m + (flatten f).length - 1]? = some true) := by
  obtain ⟨m, n, h⟩ := frameBits_eq_flatten f
  refine ⟨m, by simp [h], fun k hk => ?_, fun hne => ?_⟩
  · rw [h, List.append_assoc] at hk
    have hm : m ≤ k := by
      by_contra hlt
      rw [List.getElem?_append_left (by simpa using hlt)] at hk
      simp [List.getElem?_replicate] at hk
    refine ⟨hm, ?_⟩
    by_contra hge
    rw [List.getElem?_append_right (by simpa), List.getElem?_append_right (by simp; omega)] at hk
    simp [List.getElem?_replicate] at hk
  · obtain ⟨hfirst, hlast⟩ := (flatten_ends f).resolve_left hne
    have hpos := List.length_pos_iff.mpr hne
    have hinside (k : Nat) (hk : k < (flatten f).length) : (frameBits f)[m + k]? = (flatten f)[k]? := by
      rw [h, List.append_assoc, List.getElem?_append_right (by simp), List.getElem?_append_left (by simpa)]
      simp
    rw [List.head?_eq_getElem?] at hfirst
    rw [List.getLast?_eq_getElem?] at hlast
    exact ⟨(hinside 0 hpos).trans hfirst, by rw [Nat.add_sub_assoc hpos, hinside _ (by omega), hlast]⟩

/-- Settles O36: the ends of the slice are the first and the last 1. -/
theorem flattenIsTheSliceFromFirstToLastOne : Obligations.FlattenIsTheSliceFromFirstToLastOne := by
  intro f
  obtain ⟨m, hslice, hones, hends⟩ := flatten_slice f
  refine ⟨fun hzero => ?_, fun first last hle hlt hfirst hlast hbefore hafter => ?_⟩
  · by_contra hne
    have hm := (hends hne).1
    rw [hzero m (lt_of_frameBits_eq_true hm)] at hm
    cases hm
  · have hne : flatten f ≠ [] := fun hnil => by
      have := hones first hfirst
      rw [hnil, List.length_nil] at this
      omega
    obtain ⟨hm, hn⟩ := hends hne
    have hstart : m = first := Nat.le_antisymm (hones first hfirst).1 <| Nat.le_of_not_lt fun hlt' => by
      rw [hbefore m hlt'] at hm
      cases hm
    have hstop : ¬ last < m + (flatten f).length - 1 := fun hlt' => by
      rw [hafter _ hlt' (lt_of_frameBits_eq_true hn)] at hn
      cases hn
    have hend := (hones last hlast).2
    have hlength : (flatten f).length = last - first + 1 := by omega
    rw [hslice, hlength, hstart]

/-! ### FFLAT (R126) -/

/-- FFLAT in CODED of a block that is not halted completes. -/
theorem exec_fflat_of_coded {s : State} (hf : s.fault = .none) (hc : s.phase = .coded) :
    exec .fflat s = .next ((s.writeBitSequence (flatten s.frame)).setPhase .flat) := by
  rw [exec_eq_runOperation, runOperation_inOrder hf rfl (by rw [hc]; rfl)]
  rfl

/-- Settles O37: the flattened frame fits BITS and BITLEN. -/
theorem fflatWritesTheBitSequence : Obligations.FflatWritesTheBitSequence := by
  intro s hf hc
  refine ⟨_, _, exec_fflat_of_coded hf hc, writeBitSequence_bitlen_toNat (s := s) (flatten_length_le s.frame), fun k => ?_⟩
  exact fillBits_getElem _ k.val k.isLt

/-! ### The length of the bit sequence (R127) -/

/-- Of the first eight bits the bare magic sets the last only (20_memory.md R51). -/
theorem frameBits_of_magic {f : Frame} (h : readByte f 0 = 0x80) {k : Nat} (hk : k < 8) :
    (frameBits f)[k]? = some true ↔ k = 7 := by
  rw [frameBits_eq_true_iff, Nat.div_eq_of_lt hk, Nat.mod_eq_of_lt hk, h]
  revert k
  decide

/-- With the bare magic in byte 0 the flatten starts at bit 7 of the frame, so its last 1 is that of the frame. -/
theorem flatten_last_of_magic {f : Frame} (h : readByte f 0 = 0x80) :
    (frameBits f)[6 + (flatten f).length]? = some true
      ∧ ∀ k, (frameBits f)[k]? = some true → k ≤ 6 + (flatten f).length := by
  obtain ⟨m, _, hones, hends⟩ := flatten_slice f
  obtain ⟨hm7, hlen⟩ := hones 7 ((frameBits_of_magic h (by decide)).mpr rfl)
  obtain ⟨hm, hlast⟩ := hends (List.length_pos_iff.mp (by omega))
  obtain rfl : m = 7 := (frameBits_of_magic h (by omega)).mp hm
  refine ⟨by rwa [show 7 + (flatten f).length - 1 = 6 + (flatten f).length by omega] at hlast, fun k hk => ?_⟩
  have := (hones k hk).2
  omega

theorem flatten_length_le_of_magic {f : Frame} (h : readByte f 0 = 0x80) : (flatten f).length ≤ 65 := by
  have := lt_of_frameBits_eq_true (flatten_last_of_magic h).1
  omega

theorem exists_bit_of_ne_zero {b : Byte} (h : b ≠ 0) : ∃ k < 8, b.getLsbD k = true := by
  by_contra hnone
  push Not at hnone
  exact h (BitVec.eq_of_getLsbD_eq fun k hk => by simpa using hnone k hk)

/-- With the bare magic in byte 0, the last byte that is not zero holds the end of the bit sequence. -/
theorem flatten_length_of_last_byte {f : Frame} {n : Nat} (h : readByte f 0 = 0x80) (hn : readByte f n ≠ 0)
    (hzero : ∀ j, n < j → readByte f j = 0) : 8 * n ≤ 6 + (flatten f).length ∧ 6 + (flatten f).length < 8 * n + 8 := by
  obtain ⟨hlast, hones⟩ := flatten_last_of_magic h
  constructor
  · obtain ⟨k, hk, hbit⟩ := exists_bit_of_ne_zero hn
    have hone : (frameBits f)[8 * n + k]? = some true :=
      frameBits_eq_true_iff.mpr (by rwa [show (8 * n + k) / 8 = n by omega, show (8 * n + k) % 8 = k by omega])
    have := hones _ hone
    omega
  · by_contra hge
    have hbit := frameBits_eq_true_iff.mp hlast
    rw [hzero _ (by omega)] at hbit
    simp at hbit

/-- The last payload byte of a coded frame ends its bit sequence when nothing stands beyond the length: no code is zero
(20_memory.md R56 (c)). -/
theorem flatten_length_of_coded {T : Table} {f g : Frame} {len : BitVec 4} {sum : BitVec 16} (hT : T.Admissible)
    (hlen : len = 6 ∨ len = 9) (h : substitute T f len = .coded g sum) (hmagic : readByte f 0 = 0x80)
    (hzero : ∀ j, len.toNat ≤ j → readByte f j = 0) :
    8 * (len.toNat - 1) ≤ 6 + (flatten g).length ∧ 6 + (flatten g).length < 8 * (len.toNat - 1) + 8 := by
  have hlen' := toNat_of_legalLen hlen
  obtain ⟨hkeep, hbeyond⟩ := substitute_coded_outside h
  have hmem : len.toNat - 1 ∈ payload len := mem_payload.mpr (by omega)
  refine flatten_length_of_last_byte (hkeep.trans hmagic) ?_ fun j hj => ?_
  · rw [(substitute_coded h).2, if_neg (by omega), if_pos hmem]
    exact (hT.2 _).1
  · exact (hbeyond j (by omega) (by omega)).trans (hzero j (by omega))

/-- The runs of a sequence are no more than its bits (42_run_length.md R144). -/
theorem rle_length_le {seq : List Bit} {out : List Nat} (h : rle seq = some out) : out.length ≤ seq.length := by
  rcases rle_cases seq with ⟨_, hr⟩ | ⟨b, rest, rfl, hr⟩ <;> rw [hr] at h
  · cases h
  · cases h
    exact (rleWalk_length b 1 rest).2

/-- Settles O38: 34 to 41 bits and 58 to 65 are the bounds by the last payload byte, 5 or 8. -/
theorem bitSequenceLengthBounds : Obligations.BitSequenceLengthBounds := by
  refine ⟨fun f => ⟨flatten_length_le f, flatten_length_le_of_magic⟩, fun T f g len sum hT hlen h hmagic hzero => ?_⟩
  have hbounds := flatten_length_of_coded hT hlen h hmagic hzero
  refine ⟨?_, ?_, fun _ => rle_length_le⟩
  · intro h6
    have : len.toNat = 6 := congrArg BitVec.toNat h6
    omega
  · intro h9
    have : len.toNat = 9 := congrArg BitVec.toNat h9
    omega

end Sys2Proof.Machine
end

section
/-! The run-length family (42_run_length.md): the run lengths of a sequence and back, FRLE in FLAT, the sentinel, and the whole encode
in BUILD beside its three stages. -/

namespace Sys2Proof.Machine

/-! ### The run lengths of a sequence (R141, R144) -/

theorem rle_eq_none_iff {seq : List Bit} : rle seq = none ↔ seq = [] := by
  cases seq <;> simp [rle]

/-- Run lengths are those of the walk from the first bit (42_run_length.md R141). -/
theorem rle_eq_some {seq : List Bit} {out : List Nat} (h : rle seq = some out) :
    ∃ b rest, seq = b :: rest ∧ out = rleWalk b 1 rest := by
  rcases rle_cases seq with ⟨_, hr⟩ | ⟨b, rest, rfl, hr⟩ <;> rw [hr] at h
  · cases h
  · exact ⟨b, rest, rfl, (Option.some.inj h).symm⟩

/-- Settles O40. -/
theorem runLengthsAddUpToTheSequence : Obligations.RunLengthsAddUpToTheSequence := by
  intro s
  refine ⟨rle_eq_none_iff, fun out h => ?_⟩
  obtain ⟨b, rest, rfl, rfl⟩ := rle_eq_some h
  obtain ⟨hone, hmany⟩ := rleWalk_length b 1 rest
  exact ⟨rleWalk_pos b 1 rest (Nat.le_refl 1), by rw [rleWalk_sum, List.length_cons, Nat.add_comm], hone, hmany⟩

/-- Settles O41: the walk's expansion with the counter at one for the first bit. -/
theorem expandingTheRunsGivesTheSequence : Obligations.ExpandingTheRunsGivesTheSequence := by
  intro b rest out h
  obtain rfl := Option.some.inj h
  exact expandRuns_rleWalk b 1 rest

/-- The walk counts on through bits of the current value. -/
theorem rleWalk_replicate_append (cur : Bit) (cnt n : Nat) (l : List Bit) :
    rleWalk cur cnt (List.replicate n cur ++ l) = rleWalk cur (cnt + n) l := by
  induction n generalizing cnt with
  | zero => rfl
  | succ n ih => rw [List.replicate_succ, List.cons_append, rleWalk, if_pos rfl, ih, Nat.add_assoc, Nat.add_comm 1]

/-- The walk ends the run under way where positive runs of the other bit begin, and gives those runs back. -/
theorem rleWalk_expandRuns_not (cur : Bit) (cnt : Nat) {out : List Nat} (h : ∀ n ∈ out, 1 ≤ n) :
    rleWalk cur cnt (expandRuns (!cur) out) = cnt :: out := by
  induction out generalizing cur cnt with
  | nil => rfl
  | cons n out ih =>
    obtain ⟨hn, hout⟩ := List.forall_mem_cons.mp h
    obtain ⟨m, rfl⟩ := Nat.exists_eq_add_of_le' hn
    rw [expandRuns, List.replicate_succ, List.cons_append, rleWalk, if_neg (by simp), rleWalk_replicate_append,
      ih (!cur) (1 + m) hout, Nat.add_comm]

/-- Positive counts that expand to a sequence from its first bit are its run lengths. -/
theorem rle_expandRuns (b : Bit) {n : Nat} {out : List Nat} (hn : 1 ≤ n) (h : ∀ m ∈ out, 1 ≤ m) :
    rle (expandRuns b (n :: out)) = some (n :: out) := by
  obtain ⟨m, rfl⟩ := Nat.exists_eq_add_of_le' hn
  rw [expandRuns, List.replicate_succ, List.cons_append, rle, rleWalk_replicate_append, rleWalk_expandRuns_not _ _ h,
    Nat.add_comm]

/-- Settles O42: the run lengths come back from the expansion, and the sequence from the run lengths. -/
theorem runLengthsDetermineTheSequence : Obligations.RunLengthsDetermineTheSequence := by
  refine ⟨fun b rest out hpos h => ?_, fun b rest rest' h => ?_⟩
  · cases out with
    | nil => cases h
    | cons n out =>
      obtain ⟨hn, hout⟩ := List.forall_mem_cons.mp hpos
      rw [← h, rle_expandRuns b hn hout]
  · have hrest := expandingTheRunsGivesTheSequence b rest _ rfl
    have hrest' := expandingTheRunsGivesTheSequence b rest' _ h.symm
    exact (List.cons.inj (hrest.symm.trans hrest')).2

/-- No run is longer than the sequence. -/
theorem le_length_of_mem_rle {seq : List Bit} {out : List Nat} (h : rle seq = some out) {n : Nat} (hn : n ∈ out) :
    n ≤ seq.length := by
  obtain ⟨b, rest, rfl, rfl⟩ := rle_eq_some h
  exact rleWalk_le_length hn

/-- The runs of a trimmed sequence are odd in number (42_run_length.md R144 (5)). -/
theorem rle_length_odd {seq : List Bit} {out : List Nat} (h : rle seq = some out) (ht : Trimmed seq) :
    out.length % 2 = 1 := by
  obtain ⟨b, rest, rfl, rfl⟩ := rle_eq_some h
  exact rleWalk_odd_of_trimmed ht

/-- Settles O43: an odd number of runs is not 72. -/
theorem marksAtBothEndsGiveAnOddRunCount : Obligations.MarksAtBothEndsGiveAnOddRunCount := by
  intro s out h hfirst hlast hlen
  have hodd := rle_length_odd h (.inr ⟨hfirst, hlast⟩)
  have hcount := (rle_length_le h).trans hlen
  exact ⟨hodd, by omega, fun n hn => (le_length_of_mem_rle h hn).trans hlen⟩

/-! ### FRLE (R142) -/

theorem bitSequence_length_le (s : State) : s.bitSequence.length ≤ 73 := by
  simp [State.bitSequence]

theorem bitSequence_eq_nil_iff {s : State} : s.bitSequence = [] ↔ s.bitlen = 0 := by
  simp [State.bitSequence, ← BitVec.toNat_inj]

/-- The run lengths of a sequence that fits BITS fit RLELEN and the entries of RLE. -/
theorem writeRunLengths_of_rle {s : State} {seq : List Bit} {out : List Nat} (h : rle seq = some out)
    (hlen : seq.length ≤ 73) :
    (s.writeRunLengths out).rlelen.toNat = out.length
      ∧ ∀ j : Fin 73, (s.writeRunLengths out).rle[j].toNat = out.getD j.val 0 := by
  refine ⟨writeRunLengths_rlelen_toNat ((rle_length_le h).trans hlen), fun j => ?_⟩
  have hfits : out.getD j.val 0 < 256 := by
    rw [List.getD_eq_getElem?_getD]
    cases hj : out[j.val]? with
    | none => decide
    | some n =>
      have := le_length_of_mem_rle h (List.mem_of_getElem? hj)
      rw [Option.getD_some]
      omega
  rw [State.writeRunLengths_rle, Fin.getElem_fin, fillRuns_getElem, BitVec.toNat_ofNat, Nat.mod_eq_of_lt hfits]

/-- FRLE in FLAT of a block that is not halted makes its own check only (60_exceptions.md R186). -/
theorem exec_frle_of_flat {s : State} (hf : s.fault = .none) (hp : s.phase = .flat) : exec .frle s = frleEffect s := by
  rw [exec_eq_runOperation, runOperation_inOrder hf rfl (by rw [hp]; rfl)]
  rfl

/-- On a sequence with run lengths FRLE in FLAT completes. -/
theorem exec_frle_of_rle {s : State} {out : List Nat} (h : rle s.bitSequence = some out) (hf : s.fault = .none)
    (hp : s.phase = .flat) : exec .frle s = .next ((s.writeRunLengths out).setPhase .done) := by
  rw [exec_frle_of_flat hf hp, frleEffect, h]

/-- Settles O39: the sequence is empty exactly when BITLEN is 0, and at most 73 runs of at most 73 fit the registers. -/
theorem frleWritesTheRunLengths : Obligations.FrleWritesTheRunLengths := by
  intro s hf hp
  refine ⟨fun hne => ?_, fun h0 => ?_⟩
  · obtain ⟨out, hout⟩ := Option.ne_none_iff_exists'.mp
      (mt (fun h => bitSequence_eq_nil_iff.mp (rle_eq_none_iff.mp h)) hne)
    exact ⟨out, _, _, exec_frle_of_rle hout hf hp, hout, writeRunLengths_of_rle (s := s) hout (bitSequence_length_le s)⟩
  · rw [exec_frle_of_flat hf hp, frleEffect, bitSequence_eq_nil_iff.mpr h0]
    rfl

/-! ### The sentinel (R143) -/

/-- The numbers up to the first zero are those before it. -/
theorem takeWhile_ne_zero_eq_take {l : List Nat} {n : Nat} (hn : l[n]? = some 0) (hpos : ∀ k < n, l[k]? ≠ some 0) :
    l.takeWhile (· ≠ 0) = l.take n := by
  obtain ⟨hlt, hzero⟩ := List.getElem?_eq_some_iff.mp hn
  have hfirst : l.findIdx (fun a => !decide (a ≠ 0)) = n := by
    refine (List.findIdx_eq hlt).mpr ⟨by simp [hzero], fun k hk => ?_⟩
    simpa [List.getElem?_eq_getElem (hk.trans hlt)] using hpos k hk
  rw [List.takeWhile_eq_take_findIdx_not, hfirst]

/-- Settles O44: the entries of RLE are positive below RLELEN and zero from there on. -/
theorem sentinelEndsTheRuns : Obligations.SentinelEndsTheRuns := by
  intro s h
  have hlt : s.rlelen.toNat < 73 := h.rlelenBound.trans_lt (by decide)
  have hzero : s.rle[s.rlelen.toNat] = 0 := h.runsZeroBeyond ⟨_, hlt⟩ (Nat.le_refl _)
  refine ⟨?_, hlt, by rw [Vector.getElem?_eq_getElem hlt, hzero]⟩
  rw [runLengths, List.map_take]
  refine takeWhile_ne_zero_eq_take (by simp [hlt, hzero]) fun k hk => ?_
  have hpos : 1 ≤ s.rle[k].toNat := h.runsPositive ⟨k, hk.trans hlt⟩ hk
  simpa [hk.trans hlt] using Nat.ne_of_gt hpos

/-! ### FENC and its three stages (R145) -/

/-- FENC in BUILD completes when no payload byte is outside the table's domain. -/
theorem exec_fenc_of_build {s : State} (hf : s.fault = .none) (hb : s.phase = .build)
    (hin : firstOutside s.frame s.len = none) :
    ∃ g sum out, substitute Config.subst s.frame s.len = .coded g sum
      ∧ rle (flatten g) = some out
      ∧ exec .fenc s =
          .next (((((s.setFrame g).setSum sum).writeBitSequence (flatten g)).writeRunLengths out).setPhase .done) := by
  rw [exec_eq_runOperation, runOperation_inOrder hf rfl (by rw [hb]; rfl)]
  rcases fencEffect_cases subst_ne_zero s with ⟨k, hk, _⟩ | ⟨_, g, sum, b, rest, hsub, hflat, h⟩
  · rw [hin] at hk
    cases hk
  · exact ⟨g, sum, _, hsub, by rw [hflat]; rfl, h⟩

/-- FSUB and FENC in BUILD record the same SubstDomain when a payload byte is outside the table's domain. -/
theorem exec_of_outside {s : State} {k : Nat} {i : Instr} (hi : i = .fsub ∨ i = .fenc) (hf : s.fault = .none)
    (hb : s.phase = .build) (hout : firstOutside s.frame s.len = some k) :
    exec i s = .next (s.trapEntry .substDomain (substDomainInfo k (readByte s.frame k))) := by
  have hsub : substitute Config.subst s.frame s.len = .outside k (readByte s.frame k) := by rw [substitute, hout]
  rcases hi with rfl | rfl <;> rw [exec_eq_runOperation, runOperation_inOrder hf rfl (by rw [hb]; rfl)]
  · rw [effectOf, fsubEffect, hsub]
    rfl
  · rw [effectOf, fencEffect, encodeFrame, hsub]
    rfl

/-- A halted block ignores every operation (60_exceptions.md R191). -/
theorem runOps_halted {s : State} (h : s.fault ≠ .none) (is : List Instr) : runOps is s = .next s := by
  induction is with
  | nil => rfl
  | cons i is ih => rw [runOps_cons_of_next (exec_halted h), ih]

/-- FSUB, FFLAT and FRLE in BUILD complete one after the other on a coded frame with run lengths. -/
theorem runOps_stages_of_build {s : State} {g : Frame} {sum : BitVec 16} {out : List Nat} (hf : s.fault = .none)
    (hb : s.phase = .build) (hin : firstOutside s.frame s.len = none)
    (hsub : substitute Config.subst s.frame s.len = .coded g sum) (hout : rle (flatten g) = some out) :
    runOps [.fsub, .fflat, .frle] s =
      .next (((((s.setFrame g).setSum sum).writeBitSequence (flatten g)).writeRunLengths out).setPhase .done) := by
  obtain ⟨g', sum', hsub', hfsub⟩ := exec_fsub_of_build hf hb hin
  obtain ⟨rfl, rfl⟩ := Substituted.coded.inj (hsub.symm.trans hsub')
  have hfflat := exec_fflat_of_coded (s := ((s.setFrame g).setSum sum).setPhase .coded) hf rfl
  have hrle : rle ((((s.setFrame g).setSum sum).writeBitSequence (flatten g)).setPhase .flat).bitSequence = some out := by
    rw [bitSequence_of_filled ((flatten_length_le g).trans (by decide)) rfl rfl, hout]
  rw [runOps_cons_of_next hfsub, runOps_cons_of_next hfflat]
  exact runOps_cons_of_next (exec_frle_of_rle hrle hf rfl) []

/-- Settles O46: a halted block ignores all four, an outside byte stops FSUB as it stops FENC, and otherwise all complete. -/
theorem fencEqualsTheThreeStages : Obligations.FencEqualsTheThreeStages := by
  intro s hb
  by_cases hf : s.fault = .none
  · cases hin : firstOutside s.frame s.len with
    | some k =>
      rw [exec_of_outside (.inr rfl) hf hb hin, runOps_cons_of_next (exec_of_outside (.inl rfl) hf hb hin),
        runOps_halted (by simp)]
    | none =>
      obtain ⟨g, sum, out, hsub, hout, h⟩ := exec_fenc_of_build hf hb hin
      rw [h, runOps_stages_of_build hf hb hin hsub hout]
  · rw [exec_halted hf, runOps_halted hf]

/-! ### The whole encode (R145, R146) -/

/-- Settles O45: the coded frame's bit sequence and run lengths fit the registers. -/
theorem fencEncodesTheFrame : Obligations.FencEncodesTheFrame := by
  intro s hf hb _ hdomain
  have hin : firstOutside s.frame s.len = none := firstOutside_eq_none.mpr fun i hi =>
    have ⟨_, h2, hi⟩ := mem_payload.mp hi
    hdomain i h2 hi
  obtain ⟨g, sum, out, hsub, hout, h⟩ := exec_fenc_of_build hf hb hin
  have hlen := flatten_length_le g
  exact ⟨g, sum, out, _, _, _, _, h, hsub, hout, writeBitSequence_bitlen_toNat (s := s) hlen,
    fun k => fillBits_getElem _ k.val k.isLt, writeRunLengths_of_rle (s := s) hout (hlen.trans (by decide))⟩

/-- In BUILD the current encode is FRAME and LEN (20_memory.md R63). -/
theorem sameCurrentEncode_of_build {s t : State} (hs : s.phase = .build) (ht : t.phase = .build)
    (hfault : s.fault = t.fault) (hframe : s.frame = t.frame) (hlen : s.len = t.len) : SameCurrentEncode s t := by
  refine ⟨hframe, hlen, hs.trans ht.symm, hfault, ?_, ?_, ?_⟩ <;> simp [hs]

/-- FENC that records no fault ends in DONE. -/
theorem exec_fenc_phase {s t : State} (h : exec .fenc s = .next t) (hs : s.fault = .none) (ht : t.fault = .none) :
    t.phase = .done := by
  rcases exec_cases h with ⟨hf, _⟩ | ⟨_, c, info, hc, rfl, _⟩ | ⟨_, _, _, g, sum, b, rest, _, _, rfl⟩
  · exact absurd hs hf
  · exact absurd ht hc
  · rfl

/-- Settles O47: the blocks agree on the current encode before FENC, so after it too, and DONE makes every output register
part of it. -/
theorem encodeDependsOnlyOnFrameAndLength : Obligations.EncodeDependsOnlyOnFrameAndLength := by
  intro s t s' t' hbs hbt hs ht hframe hlen hs' ht'
  have hsame := sameCurrentEncode_of_build hbs hbt (hs.trans ht.symm) hframe hlen
  obtain ⟨s₁, t₁, hs₁, ht₁, hframe', _, hphase, hfault, hsum, hbits, hruns⟩ := hsame.exec .fenc
  obtain rfl := Host.Outcome.next.inj (hs'.symm.trans hs₁)
  obtain rfl := Host.Outcome.next.inj (ht'.symm.trans ht₁)
  refine ⟨hframe', hfault, hphase, fun hnone => ?_⟩
  have hdone := exec_fenc_phase hs' hs hnone
  obtain ⟨hb, hbl⟩ := hbits (.inr hdone)
  exact ⟨hsum (.inr (.inr hdone)), hb, hbl, hruns hdone⟩

end Sys2Proof.Machine
end

section
/-! The command variants family (43_command_variants.md): the descriptor table, the two forms of the encode program, and the program
whose fields stay in bits 0 to 5 run to its end. -/

namespace Sys2Proof.Machine

/-- Settles O51: seven words and seven frames, one by one. -/
theorem descriptorTableWordsAndFrames : Obligations.DescriptorTableWordsAndFrames := by
  intro v
  cases v <;> decide

/-! ### The two forms of the encode program (R161) -/

theorem runOps_singleton (i : Instr) (s : State) : runOps [i] s = exec i s := by
  rw [runOps]
  cases exec i s <;> rfl

theorem runOps_append_of_next {is : List Instr} {s t : State} (h : runOps is s = .next t) (js : List Instr) :
    runOps (is ++ js) s = runOps js t := by
  induction is generalizing s with
  | nil =>
    obtain rfl := Host.Outcome.next.inj h
    rfl
  | cons i is ih =>
    rw [List.cons_append, runOps]
    rw [runOps] at h
    cases hi : exec i s with
    | next u =>
      rw [hi] at h
      exact ih h
    | fault r => simp [hi] at h
    | refused r => simp [hi] at h

/-- The outcome is a next state that is halted or in BUILD. -/
def EndsHaltedOrInBuild (r : Result) : Prop := ∃ t, r = .next t ∧ (t.fault ≠ .none ∨ t.phase = .build)

/-- A block already halted, or one whose check of the operation fails, is left halted; otherwise the operation has its effect. -/
theorem exec_halts_or_effect {i : Instr} {s u : State} (h : effectOf i s = .next u) :
    ∃ t, exec i s = .next t ∧ (t.fault ≠ .none ∨ t = u) := by
  rw [exec_eq_runOperation]
  rcases runOperation_cases i (effectOf i) s with ⟨hf, h'⟩ | ⟨_, _, h'⟩ | ⟨_, _, _, h'⟩ | ⟨_, _, _, h'⟩
  · exact ⟨s, h', .inl hf⟩
  · exact ⟨_, h', .inl (by simp)⟩
  · exact ⟨_, h', .inl (by simp)⟩
  · exact ⟨u, h'.trans h, .inr rfl⟩

/-- A halted block stays so; otherwise the rest of the run starts at the operation's effect. -/
theorem endsHaltedOrInBuild_cons {i : Instr} {is : List Instr} {s u : State} (hu : effectOf i s = .next u)
    (h : EndsHaltedOrInBuild (runOps is u)) : EndsHaltedOrInBuild (runOps (i :: is) s) := by
  obtain ⟨t, ht, hf | rfl⟩ := exec_halts_or_effect hu
  · exact ⟨t, by rw [runOps_cons_of_next ht, runOps_halted hf], .inl hf⟩
  · rwa [runOps_cons_of_next ht]

theorem endsHaltedOrInBuild_fplaces (ps : List Placement) {s : State} (hb : s.phase = .build) :
    EndsHaltedOrInBuild (runOps (ps.map Placement.fplace) s) := by
  induction ps generalizing s with
  | nil => exact ⟨s, rfl, .inr hb⟩
  | cons p ps ih => exact endsHaltedOrInBuild_cons rfl (ih hb)

/-- FINIT and placements, with any operands and from any state, leave a block that is halted or in BUILD. -/
theorem endsHaltedOrInBuild_populate (d : CommandDescriptor) (ps : List Placement) (s : State) :
    EndsHaltedOrInBuild (runOps (d.finit :: ps.map Placement.fplace) s) :=
  endsHaltedOrInBuild_cons rfl (endsHaltedOrInBuild_fplaces ps rfl)

/-- Settles O50: a halted block ignores the endings of both forms, and in BUILD they agree by O46. -/
theorem encodeProgramFormsAgree : Obligations.EncodeProgramFormsAgree := by
  intro d ps s
  obtain ⟨t, ht, h⟩ := endsHaltedOrInBuild_populate d ps s
  rw [encodeProgram, encodeProgramStages, runOps_append_of_next ht, runOps_append_of_next ht]
  rcases h with hf | hb
  · rw [runOps_halted hf, runOps_halted hf]
  · rw [runOps_singleton, fencEqualsTheThreeStages t hb]

/-! ### A populated frame inside the table's domain (R167, R214) -/

theorem readByte_initFrame_seven (len : BitVec 4) (ft : BitVec 3) (aid : Byte) :
    readByte (initFrame len ft aid) 7 = if len = 9 ∧ aid ≠ 0 then aid else 0 := by
  rw [initFrame_eq]
  rfl

/-- FINIT leaves every byte but the magic, the flagsType and the action id zero (40_frame_build.md R101). -/
theorem readByte_initFrame_eq_zero (len : BitVec 4) (ft : BitVec 3) (aid : Byte) {j : Nat} (h0 : j ≠ 0) (h2 : j ≠ 2)
    (h7 : j ≠ 7) : readByte (initFrame len ft aid) j = 0 := by
  rw [initFrame_eq]
  match j with
  | 1 | 3 | 4 | 5 | 6 | 8 => rfl
  | _ + 9 => exact readByte_of_ge (by omega)

/-- After FINIT with an action id below 64 every byte but byte 0 is inside the table's domain. -/
theorem readByte_initFrame_lt (len : BitVec 4) (ft : BitVec 3) {aid : Byte} (haid : aid.toNat < 64) {j : Nat}
    (h0 : j ≠ 0) : (readByte (initFrame len ft aid) j).toNat < 2 ^ 6 := by
  by_cases h2 : j = 2
  · rw [h2, readByte_initFrame_two]
    exact (flagsByte_field ft).2.trans_lt (by decide)
  by_cases h7 : j = 7
  · rw [h7, readByte_initFrame_seven]
    split
    · exact haid
    · decide
  · rw [readByte_initFrame_eq_zero len ft aid h0 h2 h7]
    decide

/-- A placement sets no bit at `to + w` or above. -/
theorem mask_toNat_lt {p : Placement} {n : Nat} (hw : p.w.toNat ≤ 8) (h : p.toff.toNat + p.w.toNat ≤ n) :
    p.mask.toNat < 2 ^ n := by
  have hfrag : (extract p.val p.so p.w).toNat < 2 ^ p.w.toNat := by
    rw [extract_toNat _ _ hw]
    exact Nat.mod_lt _ (Nat.two_pow_pos _)
  calc p.mask.toNat ≤ (extract p.val p.so p.w).toNat <<< p.toff.toNat := by
        rw [Placement.mask, BitVec.toNat_shiftLeft]
        exact Nat.mod_le _ _
    _ < 2 ^ (p.w.toNat + p.toff.toNat) := Nat.shiftLeft_lt hfrag
    _ ≤ 2 ^ n := Nat.pow_le_pow_right (by decide) (by omega)

/-- A byte below a power of two stays so under placements whose masks are below it. -/
theorem readByte_placeAll_lt {ps : List Placement} {n : Nat} (hps : ∀ p ∈ ps, p.mask.toNat < 2 ^ n) {f : Frame} {j : Nat}
    (hf : (readByte f j).toNat < 2 ^ n) : (readByte (placeAll ps f) j).toNat < 2 ^ n := by
  induction ps generalizing f with
  | nil => exact hf
  | cons p ps ih =>
    obtain ⟨hp, hps⟩ := List.forall_mem_cons.mp hps
    refine ih hps ?_
    rw [readByte_onto, BitVec.toNat_or]
    refine Nat.or_lt_two_pow hf ?_
    unfold Placement.maskAt
    split
    · exact hp
    · exact Nat.two_pow_pos n

/-- Under the layout conditions of 70_reset_and_hazards.md R214 no payload byte of the populated frame is outside the domain. -/
theorem firstOutside_populated {d : CommandDescriptor} {ps : List Placement} (haid : d.aid.toNat < 64)
    (hps : ∀ p ∈ ps, p.legal = true ∧ p.toff.toNat + p.w.toNat ≤ 6) :
    firstOutside (placeAll ps (initFrame d.len d.ft d.aid)) d.len = none := by
  refine firstOutside_eq_none.mpr fun i hi => readByte_placeAll_lt (n := 6) (fun p hp => ?_) ?_
  · obtain ⟨hlegal, hbits⟩ := hps p hp
    exact mask_toNat_lt (p.legal_iff.mp hlegal).2.2 hbits
  · obtain ⟨_, h2, _⟩ := mem_payload.mp hi
    exact readByte_initFrame_lt d.len d.ft haid (by omega)

/-! ### The pulse train of an encode (42_run_length.md R143, R144) -/

/-- RLE holds the run lengths of a sequence that fits BITS. -/
theorem runLengths_of_rle {s : State} {seq : List Bit} {out : List Nat} (h : rle seq = some out) (hlen : seq.length ≤ 73) :
    runLengths (s.writeRunLengths out) = out :=
  runLengths_writeRunLengths ((rle_length_le h).trans hlen) fun n hn => by
    have := le_length_of_mem_rle h hn
    omega

/-- The bit sequence of a frame starts with a mark, so its runs expand from one. -/
theorem expandRuns_rle_flatten {f : Frame} {out : List Nat} (h : rle (flatten f) = some out) :
    expandRuns true out = flatten f := by
  obtain ⟨rest, hrest⟩ := flatten_eq_true_cons (f := f) fun hnil => by simp [hnil, rle] at h
  rw [hrest] at h ⊢
  exact expandingTheRunsGivesTheSequence true rest out h

/-- FENC in BUILD with the payload inside the table's domain completes, and the pulses are the flattened frame it leaves. -/
theorem exec_fenc_pulses {s : State} (hf : s.fault = .none) (hb : s.phase = .build)
    (hin : firstOutside s.frame s.len = none) :
    ∃ t, exec .fenc s = .next t ∧ t.safe = true ∧ outputFresh t = true ∧ pulses t = flatten t.frame := by
  obtain ⟨g, sum, out, _, hout, h⟩ := exec_fenc_of_build hf hb hin
  refine ⟨_, h, by simp [State.safe, hf], by simp [outputFresh, hf], ?_⟩
  calc expandRuns true (runLengths ((((s.setFrame g).setSum sum).writeBitSequence (flatten g)).writeRunLengths out))
      = expandRuns true out := by rw [runLengths_of_rle hout ((flatten_length_le g).trans (by decide))]
    _ = flatten g := expandRuns_rle_flatten hout

/-- Settles O49: the populated frame meets FENC's domain check. -/
theorem encodeProgramCompletes : Obligations.EncodeProgramCompletes := by
  intro d ps s hlen haid hps hf
  have hpopulate := runOps_populate (ft := d.ft) (aid := d.aid) hlen (fun p hp => (hps p hp).1) hf
  rw [encodeProgram, CommandDescriptor.finit, runOps_append_of_next hpopulate, runOps_singleton]
  exact exec_fenc_pulses hf rfl (firstOutside_populated haid hps)

end Sys2Proof.Machine
end

section
/-! The exceptions family (60_exceptions.md): the checks of an issued word in their order, trap entry, the halted block, the phase
table and the sequences of operations it accepts. -/

namespace Sys2Proof.Machine

/-! ### One operation against the phase table (R182, R186) -/

/-- The effect of an operation is always a next state. -/
theorem effectOf_next (i : Instr) (s : State) : ∃ t, effectOf i s = .next t := by
  cases i with
  | finit | fplace | fflat => exact ⟨_, rfl⟩
  | fsub => rcases fsubEffect_cases Config.subst s with ⟨_, _, h⟩ | ⟨_, _, _, _, h⟩ <;> exact ⟨_, h⟩
  | frle => rcases frleEffect_cases s with ⟨_, h⟩ | ⟨_, _, _, h⟩ <;> exact ⟨_, h⟩
  | fenc => rcases fencEffect_cases subst_ne_zero s with ⟨_, _, h⟩ | ⟨_, _, _, _, _, _, _, h⟩ <;> exact ⟨_, h⟩

/-- An operation that completes records no fault. -/
theorem completes_fault {i : Instr} {s t : State} (h : Completes i s t) : t.fault = s.fault := by
  cases i with
  | finit => cases h; rfl
  | fplace | fflat => obtain ⟨_, rfl⟩ := h; rfl
  | fsub | frle => obtain ⟨_, _, _, _, rfl⟩ := h; rfl
  | fenc => obtain ⟨_, _, _, _, _, _, _, rfl⟩ := h; rfl

/-- An operation that completes takes the phase along the table of R182. -/
theorem completes_phase {i : Instr} {s t : State} (h : Completes i s t) : phaseAfter s.phase i = some t.phase := by
  cases i with
  | finit => cases h; rfl
  | fplace => obtain ⟨hp, rfl⟩ := h; simp [phaseAfter, hp]
  | fflat => obtain ⟨hp, rfl⟩ := h; simp [phaseAfter, hp]
  | fsub | frle => obtain ⟨hp, _, _, _, rfl⟩ := h; simp [phaseAfter, hp]
  | fenc => obtain ⟨hp, _, _, _, _, _, _, rfl⟩ := h; simp [phaseAfter, hp]

/-- The fault that the operation's own check may record, the last of the checks (R186). -/
def OwnFault (i : Instr) (c : Cause) : Prop :=
  (c = .substDomain ∧ (i = .fsub ∨ i = .fenc)) ∨ (c = .emptySequence ∧ i = .frle)

theorem OwnFault.ne {i : Instr} {c : Cause} (h : OwnFault i c) : c ≠ .none ∧ c ≠ .sequence ∧ c ≠ .illegalOperation := by
  rcases h with ⟨rfl, _⟩ | ⟨rfl, _⟩ <;> decide

theorem exec_illegal {i : Instr} {s : State} (hf : s.fault = .none) (hw : i.wellFormed = false) :
    exec i s = .next (s.trapEntry .illegalOperation (encode i)) := by
  rw [exec_eq_runOperation, runOperation_illegal hf hw]

theorem exec_outOfOrder {i : Instr} {s : State} (hf : s.fault = .none) (hw : i.wellFormed = true)
    (hp : phaseAfter s.phase i = none) : exec i s = .next (s.trapEntry .sequence (encode i)) := by
  rw [exec_eq_runOperation, runOperation_outOfOrder hf hw (by rw [inOrder_iff_phaseAfter, hp]; rfl)]

/-- A legal operation in order ends without a fault in the phase of the table, or in the record of its own check. -/
theorem exec_inOrder {i : Instr} {s : State} {p : Phase} (hf : s.fault = .none) (hw : i.wellFormed = true)
    (hp : phaseAfter s.phase i = some p) :
    ∃ t, exec i s = .next t
      ∧ ((t.fault = .none ∧ t.phase = p) ∨ ∃ c info, OwnFault i c ∧ t = s.trapEntry c info) := by
  have ho : inOrder i s.phase = true := by rw [inOrder_iff_phaseAfter, hp]; rfl
  obtain ⟨t, ht⟩ := effectOf_next i s
  refine ⟨t, by rw [exec_eq_runOperation, runOperation_inOrder hf hw ho, ht], ?_⟩
  rcases effectOf_cases ho ht with hc | ⟨hi, info, rfl⟩ | ⟨hi, _, _, rfl⟩
  · exact .inl ⟨(completes_fault hc).trans hf, Option.some.inj ((completes_phase hc).symm.trans hp)⟩
  · exact .inr ⟨_, info, .inl ⟨rfl, hi⟩, rfl⟩
  · exact .inr ⟨_, 0, .inr ⟨rfl, hi⟩, rfl⟩

/-- Settles O18. -/
theorem illegalOperandsRaiseIllegalOperation : Obligations.IllegalOperandsRaiseIllegalOperation :=
  fun _ _ hw hf => exec_illegal hf hw

/-- Settles O16: out of order and in order are the two answers of the table. -/
theorem operationsFollowThePhaseTable : Obligations.OperationsFollowThePhaseTable := by
  refine fun i s hw hf => ⟨exec_outOfOrder hf hw, fun p hp => ?_⟩
  obtain ⟨t, ht, ⟨hnone, hphase⟩ | ⟨c, info, hc, rfl⟩⟩ := exec_inOrder hf hw hp
  · exact ⟨t, ht, by simp [hnone, hphase]⟩
  · exact ⟨_, ht, by simp [hc.ne]⟩

/-! ### One issued word (R186, R190, R191) -/

theorem issueWord_operation {W : Word} {s : State} {i : Instr} (h : decode W = .operation i) :
    issueWord W s = exec i s := by
  rw [issueWord, h]

theorem issueWord_halted {s : State} (h : s.fault ≠ .none) (W : Word) : issueWord W s = .next s := by
  rcases issueWord_cases W s with ⟨i, _, hi⟩ | ⟨_, _, hr⟩
  · rw [hi, exec_halted h]
  · rw [hr, reservedWord_halted h]

/-- Settles O14, check by check; the word of an operation is the word it was decoded from (O2). -/
theorem checksAreMadeInTheirOrder : Obligations.ChecksAreMadeInTheirOrder := by
  refine fun W s => ⟨fun h => issueWord_halted h W, fun hf why hd => ?_, fun hf i hd hp => ?_, fun hf i p hd hp => ?_⟩
  · rw [issueWord_reserved hd, reservedWord_raises hf]
    rfl
  · obtain ⟨hw, hword⟩ := encodingADecodedWordGivesItBack W i hd
    rw [issueWord_operation hd, exec_outOfOrder hf hw hp, hword]
    rfl
  · obtain ⟨hw, _⟩ := encodingADecodedWordGivesItBack W i hd
    rw [issueWord_operation hd]
    obtain ⟨t, ht, ⟨hnone, _⟩ | ⟨c, info, hc, rfl⟩⟩ := exec_inOrder hf hw hp
    · exact ⟨t, ht, .inl hnone⟩
    · exact ⟨_, ht, .inr hc⟩

/-- Settles O15: a fault is recorded by trap entry, and an operation that completes records none. -/
theorem trapEntryChangesOnlyTheFaultRecord : Obligations.TrapEntryChangesOnlyTheFaultRecord := by
  intro W s t hf h ht
  rcases issueWord_cases W s with ⟨i, _, hi⟩ | ⟨_, _, hr⟩
  · rcases exec_cases (hi.symm.trans h) with ⟨hf', _⟩ | ⟨_, c, info, _, rfl, _⟩ | ⟨_, _, hc⟩
    · exact absurd hf hf'
    · rfl
    · exact absurd ((completes_fault hc).trans hf) ht
  · rw [hr, reservedWord_raises hf] at h
    cases h
    rfl

/-- A step of a halted block takes at most a word from the host's list. -/
theorem step_halted {s : State} (h : s.fault ≠ .none) : ∃ ws, step s = .next (s.setIssued ws) := by
  rcases step_cases s with ⟨_, hs⟩ | ⟨W, rest, _, hs⟩
  · exact ⟨s.issued, hs⟩
  · exact ⟨rest, hs.trans (issueWord_halted (s := s.setIssued rest) h W)⟩

theorem core_run_succ_of_next {M : Host.Core} {s t : M.State} (h : M.step s = .next t) (k : Nat) :
    M.run (k + 1) s = M.run k t := by
  rw [Host.Core.run.eq_2, h]

/-- Any number of steps of a halted block take at most words from the host's list. -/
theorem run_halted {s : State} (h : s.fault ≠ .none) (k : Nat) :
    ∃ ws, Host.Core.run core k s = .next (s.setIssued ws) := by
  induction k generalizing s with
  | zero => exact ⟨s.issued, rfl⟩
  | succ k ih =>
    obtain ⟨ws, hs⟩ := step_halted h
    obtain ⟨ws', hrun⟩ := ih (s := s.setIssued ws) h
    exact ⟨ws', (core_run_succ_of_next (M := core) hs k).trans hrun⟩

/-- Settles O13. -/
theorem haltedBlockIgnoresEveryWord : Obligations.HaltedBlockIgnoresEveryWord := by
  refine ⟨fun s h => ⟨fun _ => exec_halted h, issueWord_halted h, fun k => ?_⟩, fun _ => rfl⟩
  obtain ⟨ws, hrun⟩ := run_halted h k
  exact ⟨_, hrun, hostRead_setIssued s ws⟩

/-! ### SubstDomain and EmptySequence (R183, R184) -/

/-- The information word of a frame byte: the byte above the index (10_state.md R31). -/
theorem substDomainInfo_toNat {k : Nat} (hk : k < 2 ^ 4) (b : Byte) : (substDomainInfo k b).toNat = b.toNat * 256 + k := by
  have hshift : b.toNat <<< 8 < 2 ^ 32 := (Nat.shiftLeft_lt (m := 8) b.isLt).trans (by decide)
  rw [substDomainInfo, BitVec.toNat_or, BitVec.toNat_shiftLeft, BitVec.toNat_setWidth_of_le (by decide),
    BitVec.toNat_setWidth_of_le (by decide), BitVec.toNat_ofNat, Nat.mod_eq_of_lt hk, Nat.mod_eq_of_lt hshift,
    ← Nat.shiftLeft_add_eq_or_of_lt (hk.trans (by decide)), Nat.shiftLeft_eq]

/-- Settles O32: the lowest index outside the domain is what `firstOutside` finds. -/
theorem substDomainReportsTheLowestByte : Obligations.SubstDomainReportsTheLowestByte := by
  intro i s hi hf hb hlen
  have hlen' := toNat_of_legalLen hlen
  refine ⟨fun k h2 hk h64 hlow => ?_, fun hin => ?_⟩
  · have hout : firstOutside s.frame s.len = some k := firstOutside_eq_some.mpr
      ⟨mem_payload.mpr ⟨by omega, h2, hk⟩, h64, fun j hj hjk => hlow j (mem_payload.mp hj).2.1 hjk⟩
    exact ⟨_, exec_of_outside hi hf hb hout, substDomainInfo_toNat (by omega) _⟩
  · have hnone : firstOutside s.frame s.len = none := firstOutside_eq_none.mpr fun j hj =>
      have ⟨_, h2, hj⟩ := mem_payload.mp hj
      hin j h2 hj
    rcases hi with rfl | rfl
    · obtain ⟨g, sum, _, h⟩ := exec_fsub_of_build hf hb hnone
      exact ⟨_, h, hf⟩
    · obtain ⟨g, sum, out, _, _, h⟩ := exec_fenc_of_build hf hb hnone
      exact ⟨_, h, hf⟩

/-- Settles O58: EmptySequence is recorded only in FLAT on an empty bit sequence, and R35 item 5 has none there. -/
theorem emptySequenceIsNeverRaised : Obligations.EmptySequenceIsNeverRaised := by
  intro s t hinv hs h
  rcases step_next_cases h with rfl | ⟨W, rest, _, rfl | ⟨_, c, info, _, rfl, hempty⟩ | ⟨hf, i, _, _, hc⟩⟩
  · exact hs
  · exact hs
  · rintro rfl
    obtain ⟨hp, hnil⟩ := hempty rfl
    have hpos : 1 ≤ s.bitlen.toNat := hinv.flatNonempty (.inl hp)
    simp [bitSequence_eq_nil_iff.mp hnil] at hpos
  · rw [completes_fault hc]
    exact hs

/-! ### The accepted sequences (R182) -/

/-- A run of legal operations follows the phase table until it ends without a fault; it stops at the table's Sequence, or at the
fault of an operation's own check. -/
theorem runOps_phases {is : List Instr} {s t : State} (hw : ∀ i ∈ is, i.wellFormed = true) (hf : s.fault = .none)
    (h : runOps is s = .next t) :
    (t.fault = .none ∧ is.foldlM phaseAfter s.phase = some t.phase)
      ∨ (t.fault = .sequence ∧ is.foldlM phaseAfter s.phase = none)
      ∨ (t.fault ≠ .none ∧ t.fault ≠ .sequence) := by
  induction is generalizing s with
  | nil => cases h; exact .inl ⟨hf, rfl⟩
  | cons i is ih =>
    obtain ⟨hi, hw⟩ := List.forall_mem_cons.mp hw
    rw [List.foldlM_cons]
    cases hp : phaseAfter s.phase i with
    | none =>
      rw [runOps_cons_of_next (exec_outOfOrder hf hi hp), runOps_halted (by simp)] at h
      cases h
      exact .inr (.inl ⟨rfl, rfl⟩)
    | some p =>
      obtain ⟨u, hu, ⟨hnone, rfl⟩ | ⟨c, info, hc, rfl⟩⟩ := exec_inOrder hf hi hp <;> rw [runOps_cons_of_next hu] at h
      · exact ih hw hnone h
      · obtain ⟨hne, hseq, _⟩ := hc.ne
        rw [runOps_halted (by exact hne)] at h
        cases h
        exact .inr (.inr ⟨hne, hseq⟩)

theorem foldlM_phaseAfter_fplaces (ps : List Placement) :
    (ps.map Placement.fplace).foldlM phaseAfter .build = some .build := by
  induction ps with
  | nil => rfl
  | cons p ps ih => exact ih

/-- From any phase the table has no Seq on the operations of one encode. -/
theorem EncodeBlock.phases {b : List Instr} (h : EncodeBlock b) (p : Phase) : ∃ q, b.foldlM phaseAfter p = some q := by
  obtain ⟨len, ft, aid, ps, tail, rfl, htail⟩ := h
  have hbuild : (Instr.finit len ft aid :: ps.map Placement.fplace).foldlM phaseAfter p = some .build :=
    foldlM_phaseAfter_fplaces ps
  rw [List.foldlM_append, hbuild]
  simp only [List.mem_cons, List.not_mem_nil, or_false] at htail
  rcases htail with rfl | rfl | rfl | rfl | rfl <;> exact ⟨_, rfl⟩

theorem foldlM_phaseAfter_blocks {blocks : List (List Instr)} (h : ∀ b ∈ blocks, EncodeBlock b) (p : Phase) :
    ∃ q, blocks.flatten.foldlM phaseAfter p = some q := by
  induction blocks generalizing p with
  | nil => exact ⟨p, rfl⟩
  | cons b blocks ih =>
    obtain ⟨hb, hblocks⟩ := List.forall_mem_cons.mp h
    obtain ⟨q, hq⟩ := hb.phases p
    rw [List.flatten_cons, List.foldlM_append, hq]
    exact ih hblocks q

/-- What may still follow, in a phase, of the encode begun there (R182). -/
def EncodeRest : Phase → List Instr → Prop
  | .idle, l => l = []
  | .build, l => ∃ ps : List Placement, ∃ tail, l = ps.map Placement.fplace ++ tail
      ∧ tail ∈ [[], [.fsub], [.fsub, .fflat], [.fsub, .fflat, .frle], [.fenc]]
  | .coded, l => l ∈ [[], [.fflat], [.fflat, .frle]]
  | .flat, l => l ∈ [[], [.frle]]
  | .done, l => l = []

theorem encodeRest_nil (p : Phase) : EncodeRest p [] := by
  cases p with
  | idle | done => rfl
  | build => exact ⟨[], [], rfl, by simp⟩
  | coded | flat => simp [EncodeRest]

/-- An operation in order begins an encode or goes on with the one begun. -/
theorem encodeRest_cons {i : Instr} {p q : Phase} {l : List Instr} (hp : phaseAfter p i = some q) (hl : EncodeRest q l) :
    EncodeBlock (i :: l) ∨ EncodeRest p (i :: l) := by
  cases i with
  | finit len ft aid =>
    cases hp
    obtain ⟨ps, tail, rfl, htail⟩ := hl
    exact .inl ⟨len, ft, aid, ps, tail, rfl, htail⟩
  | fplace tb toff w so val =>
    obtain ⟨rfl, ⟨⟩⟩ := Option.ite_none_right_eq_some.mp hp
    obtain ⟨ps, tail, rfl, htail⟩ := hl
    exact .inr ⟨⟨tb, toff, w, so, val⟩ :: ps, tail, rfl, htail⟩
  | fsub | fenc =>
    obtain ⟨rfl, ⟨⟩⟩ := Option.ite_none_right_eq_some.mp hp
    exact .inr ⟨[], _, rfl, by simpa [EncodeRest] using hl⟩
  | fflat | frle =>
    obtain ⟨rfl, ⟨⟩⟩ := Option.ite_none_right_eq_some.mp hp
    exact .inr (by simpa [EncodeRest] using hl)

/-- Operations along the table are the rest of the encode begun, then encodes. -/
theorem encodeRest_of_phases {is : List Instr} {p q : Phase} (h : is.foldlM phaseAfter p = some q) :
    ∃ l r, is = l ++ r ∧ EncodeRest p l ∧ AcceptedSequence r := by
  induction is generalizing p with
  | nil => exact ⟨[], [], rfl, encodeRest_nil p, [], rfl, nofun⟩
  | cons i is ih =>
    obtain ⟨p', hp, h⟩ := Option.bind_eq_some_iff.mp h
    obtain ⟨l, _, rfl, hl, blocks, rfl, hblocks⟩ := ih h
    rcases encodeRest_cons hp hl with hblock | hrest
    · exact ⟨[], _, rfl, encodeRest_nil p, (i :: l) :: blocks, rfl, List.forall_mem_cons.mpr ⟨hblock, hblocks⟩⟩
    · exact ⟨i :: l, _, rfl, hrest, blocks, rfl, hblocks⟩

/-- Settles O17: runs follow the phase table, whose paths from IDLE are the repetitions of the pattern. -/
theorem acceptedSequencesAreTheEncodePattern : Obligations.AcceptedSequencesAreTheEncodePattern := by
  intro is t hw h
  rcases runOps_phases hw rfl h with ⟨hf, hphases⟩ | ⟨hf, hphases⟩ | ⟨hne, hseq⟩
  · obtain ⟨l, r, rfl, rfl, hr⟩ := encodeRest_of_phases hphases
    exact ⟨fun _ => by simp [hf], fun _ => hr⟩
  · refine ⟨?_, fun hf' => absurd (hf.symm.trans hf') (by decide)⟩
    rintro ⟨blocks, rfl, hblocks⟩
    obtain ⟨q, hq⟩ := foldlM_phaseAfter_blocks hblocks State.reset.phase
    exact absurd (hq.symm.trans hphases) nofun
  · exact ⟨fun _ => hseq, fun hf => absurd hf hne⟩

end Sys2Proof.Machine
end

section
/-! The reset and hazards family (70_reset_and_hazards.md): a step issues the host's next word, every operation and every step ends in a
next state, and what stands in byte 1 before FSUB or FENC leaves no trace. -/

namespace Sys2Proof.Machine

/-! ### The word a step issues (R210, R217) -/

theorem step_of_issued_cons {s : State} {W : Word} {rest : List Word} (h : s.issued = W :: rest) :
    step s = issueWord W (s.setIssued rest) := by
  rw [step, nextIssued_cons h]

/-- Settles O9. -/
theorem stepRunsTheDecodedOperation : Obligations.StepRunsTheDecodedOperation :=
  fun _ _ _ _ hs hd => (step_of_issued_cons hs).trans (issueWord_operation hd)

theorem tableWord_word (w : Nat) : tableWord 32 w = BitVec.ofNat 32 w := by
  apply BitVec.eq_of_toNat_eq
  rw [tableWord, BitVec.toNat_ofNat, BitVec.toNat_ofNat, Nat.mod_mod]

/-- Settles O10: taking the word put at the head of the list gives the list back. -/
theorem withFetchWordIsExecutedNext : Obligations.WithFetchWordIsExecutedNext := by
  intro s w
  rw [step_of_issued_cons (s := s.withFetchWord 32 w) rfl, tableWord_word]
  rfl

/-- Settles O11. -/
theorem nothingIssuedNothingChanges : Obligations.NothingIssuedNothingChanges := by
  intro s h
  rw [step, nextIssued_nil h]

/-! ### Every operation and every step ends (R222) -/

theorem exec_next (i : Instr) (s : State) : ∃ t, exec i s = .next t := by
  obtain ⟨_, hu⟩ := effectOf_next i s
  obtain ⟨t, ht, _⟩ := exec_halts_or_effect hu
  exact ⟨t, ht⟩

theorem issueWord_next (W : Word) (s : State) : ∃ t, issueWord W s = .next t := by
  rcases issueWord_cases W s with ⟨i, _, hi⟩ | ⟨_, _, hr⟩
  · rw [hi]
    exact exec_next i s
  · by_cases hf : s.fault = .none
    · exact ⟨_, hr.trans (reservedWord_raises hf)⟩
    · exact ⟨s, hr.trans (reservedWord_halted hf)⟩

theorem completes_issued {i : Instr} {s t : State} (h : Completes i s t) : t.issued = s.issued := by
  cases i with
  | finit => cases h; rfl
  | fplace | fflat => obtain ⟨_, rfl⟩ := h; rfl
  | fsub | frle => obtain ⟨_, _, _, _, rfl⟩ := h; rfl
  | fenc => obtain ⟨_, _, _, _, _, _, _, rfl⟩ := h; rfl

/-- No operation touches the host's list of words. -/
theorem exec_issued {i : Instr} {s t : State} (h : exec i s = .next t) : t.issued = s.issued := by
  rcases exec_cases h with ⟨_, rfl⟩ | ⟨_, _, _, _, rfl, _⟩ | ⟨_, _, hc⟩
  · rfl
  · rfl
  · exact completes_issued hc

/-- Settles O12: a step without a word answers the same state, and one with a word issues it. -/
theorem everyOperationEndsInANextState : Obligations.EveryOperationEndsInANextState := by
  refine ⟨fun i s => ?_, fun s => ?_⟩
  · obtain ⟨t, ht⟩ := exec_next i s
    exact ⟨t, ht, exec_issued ht⟩
  · rcases step_cases s with ⟨_, hs⟩ | ⟨W, rest, _, hs⟩
    · exact ⟨s, hs⟩
    · rw [hs]
      exact issueWord_next W (s.setIssued rest)

/-! ### Byte 1 before FSUB and FENC (R105, R216) -/

theorem ne_one_of_mem_payload {len : BitVec 4} {i : Nat} (h : i ∈ payload len) : i ≠ 1 := by
  obtain ⟨_, h2, _⟩ := mem_payload.mp h
  omega

/-- The domain check reads payload bytes only. -/
theorem firstOutside_writeByte_one (f : Frame) (len : BitVec 4) (b : Byte) :
    firstOutside (writeByte f 1 b) len = firstOutside f len := by
  refine List.find?_congr fun i hi => ?_
  rw [readByte_writeByte_ne (ne_one_of_mem_payload hi)]

/-- A byte that is not listed is neither read nor written. -/
theorem substituteBytes_writeByte (T : Table) {l : List Nat} {k : Nat} (hk : k ∉ l) (f : Frame) (sum : BitVec 16) (b : Byte) :
    substituteBytes T l (writeByte f k b) sum =
      (writeByte (substituteBytes T l f sum).1 k b, (substituteBytes T l f sum).2) := by
  induction l generalizing f sum with
  | nil => rfl
  | cons i rest ih =>
    obtain ⟨hne, hrest⟩ := List.ne_and_not_mem_of_not_mem_cons hk
    rw [substituteBytes, readByte_writeByte_ne hne.symm, writeByte_comm f _ _ hne, ih hrest]
    rfl

/-- Step 2 overwrites byte 1, which step 1 does not read (41_frame_encode.md R121). -/
theorem substitute_writeByte_one (T : Table) (f : Frame) (len : BitVec 4) (b : Byte) :
    substitute T (writeByte f 1 b) len = substitute T f len := by
  unfold substitute
  rw [firstOutside_writeByte_one]
  cases h : firstOutside f len with
  | some i =>
    obtain ⟨hi, _⟩ := firstOutside_eq_some.mp h
    simp only [readByte_writeByte_ne (ne_one_of_mem_payload hi)]
  | none =>
    have h1 : 1 ∉ payload len := fun hmem => ne_one_of_mem_payload hmem rfl
    simp only [substituteBytes_writeByte T h1, writeByte_writeByte_self]

/-- Conversely to `exec_cases`: an operation that can complete in a block that is not halted does. -/
theorem exec_of_completes {i : Instr} {s t : State} (hf : s.fault = .none) (hw : i.wellFormed = true)
    (hc : Completes i s t) : exec i s = .next t := by
  have ho : inOrder i s.phase = true := by rw [inOrder_iff_phaseAfter, completes_phase hc]; rfl
  rw [exec_eq_runOperation, runOperation_inOrder hf hw ho]
  cases i with
  | finit => cases hc; rfl
  | fplace | fflat => obtain ⟨_, rfl⟩ := hc; rfl
  | fsub =>
    obtain ⟨_, g, sum, hsub, rfl⟩ := hc
    rw [effectOf, fsubEffect, hsub]
  | frle =>
    obtain ⟨_, b, rest, hseq, rfl⟩ := hc
    rw [effectOf, frleEffect, hseq, rle]
  | fenc =>
    obtain ⟨_, g, sum, b, rest, hsub, hflat, rfl⟩ := hc
    simp only [effectOf, fencEffect, encodeFrame, hsub, hflat, rle]

/-- Settles O34: FSUB and FENC read the frame through `substitute` alone and replace all of it. -/
theorem placementsOnByteOneLeaveNoTrace : Obligations.PlacementsOnByteOneLeaveNoTrace := by
  intro i s t b hi hf h ht
  rcases exec_cases h with ⟨hf', _⟩ | ⟨_, c, info, hc, rfl, _⟩ | ⟨_, hw, hc⟩
  · exact absurd hf hf'
  · exact absurd ht hc
  · refine exec_of_completes (s := { s with frame := writeByte s.frame 1 b }) hf hw ?_
    have hsame := substitute_writeByte_one Config.subst s.frame s.len b
    rcases hi with rfl | rfl
    · obtain ⟨hp, g, sum, hsub, rfl⟩ := hc
      exact ⟨hp, g, sum, hsame.trans hsub, rfl⟩
    · obtain ⟨hp, g, sum, c, rest, hsub, hflat, rfl⟩ := hc
      exact ⟨hp, g, sum, c, rest, hsame.trans hsub, hflat, rfl⟩

end Sys2Proof.Machine
end

section
/-! The words that 95_test_vectors.md 2.1 and section 3 print: most are looked up by the operation, legal or not, that spells them. -/

namespace Sys2Proof.Machine

/-- To read a printed word it is enough to spell the legal operation it stands for (O1). -/
theorem decode_eq_operation_of_encode_eq {W : Word} {i : Instr} (hi : i.wellFormed = true) (hW : encode i = W) :
    decode W = .operation i :=
  hW ▸ decodingAnEncodedOperationGivesItBack i hi

/-- Format D's must-be-zero bits are looked at before the length (30_encoding.md R82 step 3). -/
theorem decode_of_not_zeroBitsD {W : Word} (hop : opField W = 1) (hz : ¬ zeroBitsD W = true) :
    decode W = .reserved .mustBeZero := by
  rw [decode_of_opField_one hop, decodeFinit, if_pos hz]

/-- Settles O7: `encode` spells the ten legal words and the three with an operand out of range, so O1 and O3 give their verdicts;
the word left has bit 8 of format D set, which no operation spells. -/
theorem printedWordsDecodeAsPrinted : Obligations.PrintedWordsDecodeAsPrinted := by
  obtain ⟨illegalLen, illegalTargetByte, illegalWidth⟩ := illegalOperandsEncodeToReservedWords
  refine ⟨?_, ?_, ?_, ?_, ?_, ?_, ?_, ?_, ?_, ?_, ?bit8, ?tb9, ?w9, ?len7⟩
  case bit8 => exact decode_of_not_zeroBitsD (by decide) (by decide)
  case tb9 => exact illegalTargetByte 9 0 1 0 1 (by decide)
  case w9 => exact illegalWidth 0 0 9 0 1 (by decide) (by decide)
  case len7 => exact illegalLen 7 0 0 (by decide)
  all_goals exact decode_eq_operation_of_encode_eq (by decide) (by decide)

end Sys2Proof.Machine
end
